-- ==== Sys2Proof/Word.lean ====
section
/-! DEFINITION. The word types of the HB-DECDSA core: the widths of rule R7 (00_scope.md). -/

namespace Sys2Proof

/-- A bus data word, a control or status register, a command word: 32 bits (R7, R110). -/
abbrev Word := BitVec 32

/-- A field-element register: 128 bits, four words (R7, R88). -/
abbrev FieldWord := BitVec 128

/-- The scalar register K: 256 bits, eight words (R7, R45). -/
abbrev ScalarWord := BitVec 256

/-- A byte offset in the 4 KiB register window: 12 bits (R7, R80). -/
abbrev Offset := BitVec 12

/-- An opcode, and the LASTOP field: 8 bits (R110, R34). -/
abbrev Opcode := BitVec 8

end Sys2Proof
end

