-- ==== Sys2Proof/Syntax.lean ====
section
/-! DEFINITION. The commands of the core (spec/opcode_table.json, R113) and what the host can do at its bus port
(R82) and at its reset input (R350). -/

namespace Sys2Proof

/-- The 17 commands of the opcode map (R113). Operands are implicit (R111): a command carries no field. -/
inductive Instr where
  | init | fadd | fsub | fmul | fneg | finv | fsel | movfa | movfb
  | did | dchk | dnorm | movra | movrb | dadd | ddbl | dsmul
deriving DecidableEq, Repr

/-- Every command, in the order of the opcode table. -/
def Instr.all : List Instr :=
  [.init, .fadd, .fsub, .fmul, .fneg, .finv, .fsel, .movfa, .movfb,
   .did, .dchk, .dnorm, .movra, .movrb, .dadd, .ddbl, .dsmul]

/-- The direction of a bus transaction (R82). -/
inductive Rw where
  | read
  | write
deriving DecidableEq, Repr

/-- The size of a bus transaction in bytes: 1, 2 or 4 (R82). -/
inductive Size where
  | byte
  | half
  | word
deriving DecidableEq, Repr

/-- A bus transaction `(rw, off, size, wdata)` (R82). -/
structure Txn where
  rw    : Rw
  off   : Offset
  size  : Size
  wdata : Word
deriving DecidableEq, Repr

/-- The `resp` of a bus response (R82). -/
inductive Resp where
  | okay
  | err
deriving DecidableEq, Repr

/-- A bus response `(resp, rdata)` (R82). `rdata` is `none` for a write that answers OKAY: the spec gives such a
response no data (DEDUCED, log entry 10). -/
structure Response where
  resp  : Resp
  rdata : Option Word
deriving DecidableEq, Repr

/-- What the environment does next, in the one total order of R93: a host transaction, the turn of the sequencer
(the completion step may fall between any two host transactions, R94 and R149), or the hardware reset input
(R350). -/
inductive EnvEvent where
  | bus (t : Txn)
  | sequencer
  | hardReset
deriving DecidableEq, Repr

end Sys2Proof
end

