-- ==== Sys2Proof/WellFormed.lean ====
section
/-! DEFINITION. The checks on the syntax: command words (R110, R112), bus transactions (R83), and commands, which
carry no operand and are all well formed (R111). -/

namespace Sys2Proof

/-- A command is well formed when it is a row of the opcode map (R113): every constructor is, since a command has
no operand field (R111). -/
def Instr.wellFormed (i : Instr) : Bool := Instr.all.contains i

/-- The opcodes of the map of R113, written as the numbers the rule gives. -/
def legalOpcodes : List Nat :=
  [0x01, 0x10, 0x11, 0x12, 0x13, 0x14, 0x15, 0x18, 0x19, 0x20, 0x21, 0x22, 0x28, 0x29, 0x30, 0x31, 0x40]

/-- A command word's reserved bits 31:8 are zero (R112). -/
def reservedClear (cw : Word) : Bool := cw.toNat / 256 == 0

/-- A command word's OP field, bits 7:0, is in the opcode map (R113, R114). -/
def opcodeAssigned (cw : Word) : Bool := legalOpcodes.contains (cw.toNat % 256)

/-- A command word that is not illegal (R112, R114, R115). -/
def commandWordWellFormed (cw : Word) : Bool := reservedClear cw && opcodeAssigned cw

/-- The one supported shape of a transaction: size 4 and an offset that is a multiple of 4 (R83). -/
def Txn.wellFormed (t : Txn) : Bool := (t.size == Size.word) && (t.off.toNat % 4 == 0)

end Sys2Proof
end

