-- ==== Sys2Proof/Decode.lean ====
section
/-! DEFINITION. The decoder of command words, total on 32-bit words (R115), and the encoder (R110, R113). -/

namespace Sys2Proof

/-- Why a word is no command: both cases complete with ILLEGAL_CMD (R112, R114). -/
inductive DecodeReject where
  /-- Bits 31:8 are not all zero (R112). -/
  | reservedBits
  /-- Bits 7:0 are no opcode of the map (R114). -/
  | unassignedOpcode
deriving DecidableEq, Repr

/-- The OP field, bits 7:0 of a command word (R110). -/
def opField (cw : Word) : Opcode := cw.extractLsb' 0 8

/-- The RSVD field, bits 31:8 of a command word (R110). -/
def rsvdField (cw : Word) : BitVec 24 := cw.extractLsb' 8 24

/-- The command an opcode names, by the opcode map (R113, R114). -/
def decodeOp (op : Opcode) : Except DecodeReject Instr :=
  match op.toNat with
  | 0x01 => .ok .init
  | 0x10 => .ok .fadd
  | 0x11 => .ok .fsub
  | 0x12 => .ok .fmul
  | 0x13 => .ok .fneg
  | 0x14 => .ok .finv
  | 0x15 => .ok .fsel
  | 0x18 => .ok .movfa
  | 0x19 => .ok .movfb
  | 0x20 => .ok .did
  | 0x21 => .ok .dchk
  | 0x22 => .ok .dnorm
  | 0x28 => .ok .movra
  | 0x29 => .ok .movrb
  | 0x30 => .ok .dadd
  | 0x31 => .ok .ddbl
  | 0x40 => .ok .dsmul
  | _ => .error .unassignedOpcode

/-- The decoder of R115: reserved bits first (R112), then the opcode map. -/
def decode (cw : Word) : Except DecodeReject Instr :=
  if rsvdField cw = 0 then decodeOp (opField cw) else .error .reservedBits

/-- The opcode of a command (R113). -/
def opcode : Instr → Opcode
  | .init  => 0x01
  | .fadd  => 0x10
  | .fsub  => 0x11
  | .fmul  => 0x12
  | .fneg  => 0x13
  | .finv  => 0x14
  | .fsel  => 0x15
  | .movfa => 0x18
  | .movfb => 0x19
  | .did   => 0x20
  | .dchk  => 0x21
  | .dnorm => 0x22
  | .movra => 0x28
  | .movrb => 0x29
  | .dadd  => 0x30
  | .ddbl  => 0x31
  | .dsmul => 0x40

/-- The command word of a command: its opcode in bits 7:0, zeros in bits 31:8 (R110, R113). -/
def encode (i : Instr) : Word := (opcode i).setWidth 32

/-- The command word that the low `nbits` bits of `w` make, the bits above them zero. -/
def tableWord (nbits w : Nat) : Word := BitVec.ofNat 32 (w % 2 ^ nbits)

/-- What the decoder reads from an instruction given as a number whose bit 0 is the least significant bit of the
command word. A command is one 32-bit word written whole to CMD (R110), so there is no byte order to lay out. -/
def decodeTableWord (nbits w : Nat) : Option Instr :=
  match decode (tableWord nbits w) with
  | .ok i => some i
  | .error _ => none

end Sys2Proof
end

