-- ==== Sys2Proof/Config.lean ====
section
/-! DEFINITION. What an implementation fixes and what the spec leaves free: constants with no body, so that no
proof can see a value of one (00_scope.md R8, R15; 93_implementation_defined.md table 1). -/

namespace Sys2Proof.Config

/-- NOPS(op) of R8 and R327 for the commands other than DADD, DDBL and DSMUL, as a function of the opcode and of
KBITS only (R27). Any legal table (R328) is a value of it. Read through `Sys2Proof.Machine.nops`. -/
opaque nopsRow : (opcode : Nat) → (kbits : Nat) → Nat

/-- NOPS(DADD) = NOPS(DDBL), the count of one group operation (R27, R328). -/
opaque nopsGroup : (kbits : Nat) → Nat

/-- NSEL of R328: the count of the per-iteration divisor select of DSMUL. -/
opaque nsel : (kbits : Nat) → Nat

/-- NSM0 of R328: the count of DSMUL's set-up and write-back. -/
opaque nsm0 : (kbits : Nat) → Nat

/-- LAT(op) of R8 and R364 for the commands other than DADD and DDBL, in clock cycles, by opcode and KBITS. Read through
`Sys2Proof.Machine.latency`. -/
opaque latRow : (opcode : Nat) → (kbits : Nat) → Nat

/-- LAT(DADD) = LAT(DDBL) (R27, R364). -/
opaque latGroup : (kbits : Nat) → Nat

/-- LATF(op, code), the latency of a faulting command (R149). Read through `Sys2Proof.Machine.faultLatency`. -/
opaque latFault : (opcode : Nat) → (code : Nat) → Nat

/-- The draws of R15 for the R set (R19, R237, R269): coefficient number `slot` (0..4 for U0, U1, U2, V0, V1) of
draw number `n`. -/
opaque drawCoeff : (n : Nat) → (slot : Nat) → FieldWord

/-- The draws of R15 for the R set: stored degree number `slot` (0 for DEGU, 1 for DEGV) of draw number `n`. -/
opaque drawDegree : (n : Nat) → (slot : Nat) → Word

/-- The draw of R353: how many hook events a command had emitted when a hardware reset abandoned it, for draw
number `n`. -/
opaque drawPrefix : (n : Nat) → Nat

end Sys2Proof.Config
end

