-- ==== Sys2Proof/Machine/State.lean ====
section
/-! DEFINITION. The architectural state of the core (10_state.md R30 to R58), the reasons a step can stop, and the
machine right after reset (R57, R351). -/

namespace Sys2Proof.Machine

/-- The reasons a step could stop the machine with a fault: NONE. A contract violation is a fault STATE of the core
(R312), reached by a next state, and a misaligned or narrow bus access is answered ERR (R83): no step of this machine
stops. (Safe: nothing is hidden behind a stop. Log entry 12.) -/
inductive Fault where
deriving DecidableEq, Repr

/-- The reasons a step could have no meaning. -/
inductive Refusal where
  /-- An instruction whose meaning is not modelled. No arm of `exec` raises it: all 17 commands are modelled. (Safe.) -/
  | notModelled (mnemonic : String)
deriving DecidableEq, Repr

/-- The fault codes of R311; codes 0x08 to 0xFF are never produced. -/
inductive FaultCode where
  | none | illegalCmd | noParams | reinit | badParam | range | badDivisor | notOnCurve
deriving DecidableEq, Repr

/-- The phases the hook port names (R330). -/
inductive Phase where
  | compose | reduce | ladderIter | smul
deriving DecidableEq, Repr

/-- A hook event: `B(id)` (`atEnd = false`) or `E(id)` (`atEnd = true`) (R329, R331). -/
structure HookEvent where
  atEnd : Bool
  phase : Phase
deriving DecidableEq, Repr

/-- The pending-command record: the accepted word and the CTRL bits sampled at acceptance (R54, R150). -/
structure Pending where
  cw     : Word
  chken  : Bool
  hooken : Bool
deriving DecidableEq, Repr

/-- The parameter staging registers, which are also the parameter set while PRM = 1 (R37, R39). -/
structure CurveParams where
  p  : FieldWord
  f0 : FieldWord
  f1 : FieldWord
  f2 : FieldWord
  f3 : FieldWord
  f4 : FieldWord
  f5 : FieldWord
  h0 : FieldWord
  h1 : FieldWord
  h2 : FieldWord
deriving DecidableEq, Repr

/-- The seven registers of one divisor operand set (R42). -/
structure DivRegs where
  u0   : FieldWord
  u1   : FieldWord
  u2   : FieldWord
  v0   : FieldWord
  v1   : FieldWord
  degu : Word
  degv : Word
deriving DecidableEq, Repr

/-- The state of the core and of its environment. The fields from `env` on are the model's own.
STATUS.BUSY is `pending.isSome` (R54, R57: the record is held exactly while BUSY = 1). -/
structure State where
  /-- KBITS - 1 (R6, R35): the build parameter KBITS, 1 to 256. No step writes it. -/
  kbitsM1 : Fin 256
  /-- CTRL.CHKEN (R32). -/
  chken   : Bool
  /-- CTRL.HOOKEN (R32). -/
  hooken  : Bool
  /-- CTRL.IE (R32). -/
  ie      : Bool
  /-- The pending-command record (R54); BUSY = 1 exactly when there is one (R47). -/
  pending : Option Pending
  /-- STATUS.DONE (R48). -/
  done    : Bool
  /-- STATUS.FAULT (R49). -/
  fault   : Bool
  /-- STATUS.FCODE (R49, R311). -/
  fcode   : FaultCode
  /-- STATUS.OVR (R50). -/
  ovr     : Bool
  /-- STATUS.PRM (R51). -/
  prm     : Bool
  /-- STATUS.CHK (R52). -/
  chk     : Bool
  /-- STATUS.LASTOP (R53). -/
  lastop  : Opcode
  /-- OPCNT (R36). -/
  opcnt   : Word
  /-- P, F0..F5, H0..H2 (R37). -/
  params  : CurveParams
  /-- FA (R40). -/
  fa      : FieldWord
  /-- FB (R40). -/
  fb      : FieldWord
  /-- FR (R41). -/
  fr      : FieldWord
  /-- FC bit 0, SEL (R41). -/
  sel     : Bool
  /-- Operand set A (R42). -/
  a       : DivRegs
  /-- Operand set B (R42). -/
  b       : DivRegs
  /-- Result set R (R42, R44). -/
  r       : DivRegs
  /-- The scalar K (R45). -/
  k       : ScalarWord
  /-- The hook trace, oldest event first (R56). -/
  hooks   : List HookEvent
  /-- What the environment does next, in order (R93, R149); log entry 4. -/
  env     : List EnvEvent
  /-- The responses given so far, oldest first (R82). -/
  resps   : List Response
  /-- How many draws have been taken (R15); log entry 3. -/
  draws   : Nat
deriving DecidableEq, Repr

/-- A divisor set of zero words, the reset content of A, B and R (R57). -/
def DivRegs.zero : DivRegs :=
  { u0 := 0, u1 := 0, u2 := 0, v0 := 0, v1 := 0, degu := 0, degv := 0 }

/-- Staging registers of zero words (R57). -/
def CurveParams.zero : CurveParams :=
  { p := 0, f0 := 0, f1 := 0, f2 := 0, f3 := 0, f4 := 0, f5 := 0, h0 := 0, h1 := 0, h2 := 0 }

/-- The machine right after reset (R57, R351, R354): idle, not faulted, without parameters, every register 0.
KBITS is the reference configuration 256 of R6 (DESIGN CHOICE, log entry 1); nothing has been asked of the core,
answered, emitted or drawn. -/
def State.reset : State :=
  { kbitsM1 := 255
    chken := false, hooken := false, ie := false
    pending := none
    done := false, fault := false, fcode := .none, ovr := false, prm := false, chk := false, lastop := 0
    opcnt := 0
    params := CurveParams.zero
    fa := 0, fb := 0, fr := 0, sel := false
    a := DivRegs.zero, b := DivRegs.zero, r := DivRegs.zero
    k := 0
    hooks := [], env := [], resps := [], draws := 0 }

/-- KBITS, the scalar width, 1 to 256 (R6, R35). -/
def State.kbits (s : State) : Nat := s.kbitsM1.val + 1

/-- STATUS.BUSY (R47, R54). -/
def State.busy (s : State) : Bool := s.pending.isSome

end Sys2Proof.Machine
end

