-- ==== Sys2Proof/Machine/Flags.lean ====
section
/-! DEFINITION. The control and status registers as words (R32, R34), the fields of the hook port (R330), and the irq
output (R58). -/

namespace Sys2Proof.Machine

/-- The code of R311, as STATUS.FCODE reports it. -/
def FaultCode.code : FaultCode → BitVec 8
  | .none       => 0x00
  | .illegalCmd => 0x01
  | .noParams   => 0x02
  | .reinit     => 0x03
  | .badParam   => 0x04
  | .range      => 0x05
  | .badDivisor => 0x06
  | .notOnCurve => 0x07

/-- hook_id of R330. -/
def Phase.id : Phase → BitVec 8
  | .compose    => 0x01
  | .reduce     => 0x02
  | .ladderIter => 0x03
  | .smul       => 0x04

/-- The hook port's two value signals for an event: `(hook_end, hook_id)` (R329, R331). -/
def HookEvent.port (e : HookEvent) : Bool × BitVec 8 := (e.atEnd, e.phase.id)

/-- A flag at bit position `i` of a word. -/
def flagAt (b : Bool) (i : Nat) : Word := (BitVec.ofBool b).setWidth 32 <<< i

/-- CTRL as it reads: CHKEN, HOOKEN, IE in bits 0, 1, 2; reserved bits and SRST read 0 (R32). -/
def State.ctrlWord (s : State) : Word := flagAt s.chken 0 ||| flagAt s.hooken 1 ||| flagAt s.ie 2

/-- STATUS as it reads (R34). -/
def State.statusWord (s : State) : Word :=
  flagAt s.busy 0 ||| flagAt s.done 1 ||| flagAt s.fault 2 ||| flagAt s.ovr 3 ||| flagAt s.prm 4 |||
    flagAt s.chk 5 ||| (s.fcode.code.setWidth 32 <<< 8) ||| (s.lastop.setWidth 32 <<< 16)

/-- The interrupt output: CTRL.IE and (STATUS.DONE or STATUS.FAULT) (R58, R319). -/
def State.irq (s : State) : Bool := s.ie && (s.done || s.fault)

/-- The effect of a STATUS write: DONE and OVR are cleared by a 1 in bits 1 and 3 (R34, R85). -/
def writeStatus (w : Word) (s : State) : State :=
  { s with done := s.done && !w.getLsbD 1, ovr := s.ovr && !w.getLsbD 3 }

/-- The effect of a CTRL write with bit 31 clear: bits 2:0 are stored (R32, R85). -/
def writeCtrl (w : Word) (s : State) : State :=
  { s with chken := w.getLsbD 0, hooken := w.getLsbD 1, ie := w.getLsbD 2 }

end Sys2Proof.Machine
end

