-- ==== Sys2Proof/Machine/FieldArith.lean ====
section
/-! DEFINITION. Arithmetic in Fp on canonical integers (00_scope.md R12; 41_field.md R169, R170). -/

namespace Sys2Proof.Machine

/-- `a +p b` (R12). -/
def addp (p a b : Nat) : Nat := (a + b) % p

/-- `a -p b = (a - b) mod p`, in [0, p) (R12, R162). -/
def subp (p a b : Nat) : Nat := (((a : Int) - (b : Int)) % (p : Int)).toNat

/-- `a *p b`, the product formed at full width (R12, R163, R170). -/
def mulp (p a b : Nat) : Nat := (a * b) % p

/-- `negp(a) = (p - a) mod p` (R12, R164). -/
def negp (p a : Nat) : Nat := (((p : Int) - (a : Int)) % (p : Int)).toNat

/-- Square and multiply: `acc * base ^ e mod p` for an exponent of at most `n` bits (R165). -/
def powLoop (p : Nat) : (n : Nat) → (base e acc : Nat) → Nat
  | 0, _, _, acc => acc % p
  | n + 1, base, e, acc =>
    powLoop p n (base * base % p) (e / 2) (if e % 2 = 1 then acc * base % p else acc)

/-- `a ^ e mod p` for e below 2^128. -/
def powp (p a e : Nat) : Nat := powLoop p 128 (a % p) e 1

/-- `invp(a) = a ^ (p - 2) mod p` (R12, R165); `invp(0) = 0`. -/
def invp (p a : Nat) : Nat := powp p a (p - 2)

end Sys2Proof.Machine
end

