-- ==== Sys2Proof/Machine/Poly.lean ====
section
/-! DEFINITION. The polynomial unit's functions (42_polynomial.md R190 to R199) on polynomials of any length, as R191
allows. The constant-time structure of R197 and R200 is the hardware's schedule and has no architectural effect. -/

namespace Sys2Proof.Machine

/-- A polynomial over Fp: its coefficients, lowest degree first (R13, R190). -/
abbrev Poly := List Nat

/-- `a[i]`; a missing slot is 0 (R192). -/
def coeff (a : Poly) (i : Nat) : Nat := a.getD i 0

/-- The polynomial without leading zero slots: degree recomputation (R199). -/
def trim : Poly → Poly
  | [] => []
  | c :: cs =>
    match trim cs with
    | [] => if c = 0 then [] else [c]
    | d :: ds => c :: d :: ds

/-- `deg(a)`, -1 for the zero polynomial (R13, R199). -/
def deg (a : Poly) : Int := ((trim a).length : Int) - 1

/-- `lc(a)`; 0 for the zero polynomial (R13). -/
def lc (a : Poly) : Nat := (trim a).getLastD 0

/-- Slot by slot combination; a missing slot is 0 (R192). -/
def zipPad (g : Nat → Nat → Nat) : Poly → Poly → Poly
  | [], bs => bs.map (g 0)
  | as, [] => as.map (fun x => g x 0)
  | x :: as, y :: bs => g x y :: zipPad g as bs

/-- `padd` (R192). -/
def padd (p : Nat) (a b : Poly) : Poly := trim (zipPad (addp p) a b)

/-- `psub` (R192). -/
def psub (p : Nat) (a b : Poly) : Poly := trim (zipPad (subp p) a b)

/-- `pneg` (R192). -/
def pneg (p : Nat) (a : Poly) : Poly := trim (a.map (negp p))

/-- `pscale` (R192). -/
def pscale (p c : Nat) (a : Poly) : Poly := trim (a.map (mulp p c))

/-- `x^s · a`. -/
def pshift (s : Nat) (a : Poly) : Poly := List.replicate s 0 ++ a

/-- `pmul` (R193). -/
def pmul (p : Nat) : Poly → Poly → Poly
  | [], _ => []
  | c :: cs, b => padd p (pscale p c b) (0 :: pmul p cs b)

/-- The loop of R194 over the shifts `n - 1` down to 0: the quotient's slots found so far in `q`, the remainder in
`r`, `il` the inverse of the leading coefficient of `b` and `db` the degree of `b`. -/
def divLoop (p : Nat) (b : Poly) (il db : Nat) : (n : Nat) → (q r : Poly) → Poly × Poly
  | 0, q, r => (q, r)
  | s + 1, q, r =>
    let c := mulp p (coeff r (s + db)) il
    divLoop p b il db s (c :: q) (psub p r (pshift s (pscale p c b)))

/-- `pdivmod(a, b)` for b != 0 (R194). -/
def pdivmod (p : Nat) (a b : Poly) : Poly × Poly :=
  let db := (trim b).length - 1
  let (q, r) := divLoop p b (invp p (lc b)) db (a.length - db) [] (trim a)
  (trim q, r)

/-- `a div b` (R194). -/
def pdiv (p : Nat) (a b : Poly) : Poly := (pdivmod p a b).1

/-- `a mod b` (R194). -/
def pmod (p : Nat) (a b : Poly) : Poly := (pdivmod p a b).2

/-- `pmonic(a)`; the zero polynomial for a = 0 (R195). -/
def pmonic (p : Nat) (a : Poly) : Poly := pscale p (invp p (lc a)) a

/-- The loop of R196 while r1 != 0, `n` the bound on its iterations. -/
def xgcdLoop (p : Nat) : (n : Nat) → (r0 r1 s0 s1 t0 t1 : Poly) → Poly × Poly × Poly
  | 0, r0, _, s0, _, t0, _ => (r0, s0, t0)
  | n + 1, r0, r1, s0, s1, t0, t1 =>
    match trim r1 with
    | [] => (r0, s0, t0)
    | _ :: _ =>
      let qr := pdivmod p r0 r1
      xgcdLoop p n r1 qr.2 s1 (psub p s0 (pmul p qr.1 s1)) t1 (psub p t0 (pmul p qr.1 t1))

/-- `xgcd(a, b) = (g, s, t)` with g the monic gcd and g = s·a + t·b (R196). Each iteration lowers the degree of the
remainder, so `b.length + 1` iterations are enough. -/
def xgcd (p : Nat) (a b : Poly) : Poly × Poly × Poly :=
  let (r0, s0, t0) := xgcdLoop p (b.length + 1) a b [1 % p] [] [] [1 % p]
  let c := invp p (lc r0)
  (pscale p c r0, pscale p c s0, pscale p c t0)

/-- `gcd(a, b)`, monic (R13, R196). -/
def pgcd (p : Nat) (a b : Poly) : Poly := (xgcd p a b).1

/-- The formal derivative a' (R19), `i` the degree of the head's slot. -/
def derivFrom (p : Nat) : (i : Nat) → Poly → Poly
  | _, [] => []
  | i, c :: cs => mulp p i c :: derivFrom p (i + 1) cs

/-- The derivative of a polynomial (R19). -/
def pderiv (p : Nat) (a : Poly) : Poly := trim ((derivFrom p 0 a).tail)

/-- The masked polynomial select: `b` where `c` is 1 and `a` where it is 0 (R198). -/
def pselect (c : Bool) (a b : Poly) : Poly := if c then b else a

end Sys2Proof.Machine
end

