-- ==== Sys2Proof/Machine/Operands.lean ====
section
/-! DEFINITION. Operand forms (30_encoding.md R116 to R120): words of wide registers, field operands, degrees, the
scalar, the select bit, and the polynomials that a divisor set and the parameter set stand for. -/

namespace Sys2Proof.Machine

/-- Word `i` of a 128-bit register: bits 32i+31 to 32i (R88). -/
def getWord (v : FieldWord) (i : Fin 4) : Word := v.extractLsb' (32 * i.val) 32

/-- The 128-bit register with word `i` replaced (R88, R92). -/
def setWord (v : FieldWord) (i : Fin 4) (w : Word) : FieldWord :=
  (v &&& ~~~((BitVec.allOnes 32).setWidth 128 <<< (32 * i.val))) ||| (w.setWidth 128 <<< (32 * i.val))

/-- The positions below KBITS of the scalar register, the implemented ones (R45). -/
def scalarMask (kbits : Nat) : ScalarWord := BitVec.ofNat 256 (2 ^ kbits - 1)

/-- K with word `i` written: of its 32 bits only those at positions below KBITS are stored (R45, R85). -/
def setScalarWord (kbits : Nat) (k : ScalarWord) (i : Fin 8) (w : Word) : ScalarWord :=
  let lane : ScalarWord := ((BitVec.allOnes 32).setWidth 256 <<< (32 * i.val)) &&& scalarMask kbits
  (k &&& ~~~lane) ||| ((w.setWidth 256 <<< (32 * i.val)) &&& lane)

/-- The scalar operand k: the KBITS low bits of K (R45, R119). -/
def State.scalar (s : State) : Nat := s.k.toNat % 2 ^ s.kbits

/-- The modulus p as an integer (R39). -/
def State.p (s : State) : Nat := s.params.p.toNat

/-- f(x) = f0 + f1·x + .. + f5·x^5 (R39). -/
def CurveParams.f (c : CurveParams) : Poly :=
  [c.f0.toNat, c.f1.toNat, c.f2.toNat, c.f3.toNat, c.f4.toNat, c.f5.toNat]

/-- h(x) = h0 + h1·x + h2·x^2 (R39). -/
def CurveParams.h (c : CurveParams) : Poly := [c.h0.toNat, c.h1.toNat, c.h2.toNat]

/-- The polynomial u of a divisor set, built from all its slots (R230). -/
def DivRegs.u (D : DivRegs) : Poly := [D.u0.toNat, D.u1.toNat, D.u2.toNat]

/-- The polynomial v of a divisor set, built from all its slots (R230). -/
def DivRegs.v (D : DivRegs) : Poly := [D.v0.toNat, D.v1.toNat]

/-- The stored degree du, as int32 (R118, R230). -/
def DivRegs.du (D : DivRegs) : Int := D.degu.toInt

/-- The stored degree dv, as int32 (R118, R230). -/
def DivRegs.dv (D : DivRegs) : Int := D.degv.toInt

/-- The registers that WriteDiv(u, v) writes: exact stored degrees, 0xFFFFFFFF for v = 0 (R234). -/
def DivRegs.ofPair (u v : Poly) : DivRegs :=
  { u0 := BitVec.ofNat 128 (coeff u 0)
    u1 := BitVec.ofNat 128 (coeff u 1)
    u2 := BitVec.ofNat 128 (coeff u 2)
    v0 := BitVec.ofNat 128 (coeff v 0)
    v1 := BitVec.ofNat 128 (coeff v 1)
    degu := BitVec.ofInt 32 (deg u)
    degv := BitVec.ofInt 32 (deg v) }

/-- The identity divisor (u = 1, v = 0) in registers (R14, R235). -/
def DivRegs.identity : DivRegs := DivRegs.ofPair [1] []

/-- The seven register values of draw number `n` (R15, R234). -/
def DivRegs.draw (n : Nat) : DivRegs :=
  { u0 := Config.drawCoeff n 0
    u1 := Config.drawCoeff n 1
    u2 := Config.drawCoeff n 2
    v0 := Config.drawCoeff n 3
    v1 := Config.drawCoeff n 4
    degu := Config.drawDegree n 0
    degv := Config.drawDegree n 1 }

/-- The masked select of FSEL: with m all ones for c = 1 and 0 for c = 0, `(b AND m) OR (a AND NOT m)` (R166). -/
def maskedSelect (c : Bool) (a b : FieldWord) : FieldWord :=
  let m : FieldWord := 0 - (BitVec.ofBool c).setWidth 128
  (b &&& m) ||| (a &&& ~~~m)

end Sys2Proof.Machine
end

