-- ==== Sys2Proof/Machine/Ops.lean ====
section
/-! DEFINITION. The shared operations of every command: acceptance (R140), taking a fault (R148, R312) and leaving
the fault state by reset (R317, R351), completion without fault (R147), hook sequences (R332, R333), operation counts
(R327, R328) and draws (R15). -/

namespace Sys2Proof.Machine

/-! ### Acceptance -/

/-- Accept(CW) of R140: BUSY 1, DONE 0, LASTOP and the pending record; nothing else changes. -/
def accept (cw : Word) (s : State) : State :=
  { s with
    pending := some { cw := cw, chken := s.chken, hooken := s.hooken }
    done := false
    lastop := opField cw }

/-- The CHKEN value a command works with: the bit sampled at acceptance (R150). With no command pending, where no
command runs, CTRL's own bit (log entry 9). -/
def State.chkSnapshot (s : State) : Bool :=
  match s.pending with
  | some c => c.chken
  | none => s.chken

/-- The HOOKEN value a command works with (R150, log entry 9). -/
def State.hookSnapshot (s : State) : Bool :=
  match s.pending with
  | some c => c.hooken
  | none => s.hooken

/-! ### Taking a fault, and the way out of the fault state -/

/-- `raise Fault(code)`: FAULT 1, FCODE the code, BUSY 0, and nothing else is written (R148, R312, R316). -/
def raiseFault (code : FaultCode) (s : State) : State :=
  { s with fault := true, fcode := code, pending := none }

/-- The effect of reset, hardware or soft (R351): every register and flag at its reset value; KBITS is a constant,
the hook trace is not cleared, and what the environment does, was answered and drew is no part of the core. -/
def resetCore (s : State) : State :=
  { State.reset with
    kbitsM1 := s.kbitsM1
    hooks := s.hooks
    env := s.env
    resps := s.resps
    draws := s.draws }

/-! ### Hook sequences -/

/-- GOP, the events of one group operation (R332). -/
def gop : List HookEvent :=
  [⟨false, .compose⟩, ⟨true, .compose⟩, ⟨false, .reduce⟩, ⟨true, .reduce⟩]

/-- The events of `n` iterations of the scalar loop (R333). -/
def ladderEvents : (n : Nat) → List HookEvent
  | 0 => []
  | n + 1 => (⟨false, .ladderIter⟩ :: (gop ++ gop ++ [⟨true, .ladderIter⟩])) ++ ladderEvents n

/-- HOOKSEQ(op) (R333). -/
def hookSeq (kbits : Nat) : Instr → List HookEvent
  | .dadd  => gop
  | .ddbl  => gop
  | .dsmul => ⟨false, .smul⟩ :: (ladderEvents kbits ++ [⟨true, .smul⟩])
  | .init  => []
  | .fadd  => []
  | .fsub  => []
  | .fmul  => []
  | .fneg  => []
  | .finv  => []
  | .fsel  => []
  | .movfa => []
  | .movfb => []
  | .did   => []
  | .dchk  => []
  | .dnorm => []
  | .movra => []
  | .movrb => []

/-- HOOKSEQ(op) for an opcode field: empty for an opcode that is no command (R333). -/
def hookSeqOfOp (kbits : Nat) (op : Opcode) : List HookEvent :=
  match decodeOp op with
  | .ok i => hookSeq kbits i
  | .error _ => []

/-! ### Operation counts -/

/-- The three counts of R328 that a group operation and the scalar loop are built from. -/
structure GroupCounts where
  group : Nat
  nsel  : Nat
  nsm0  : Nat
deriving DecidableEq, Repr

/-- KBITS·(2·NOPS(DADD) + NSEL) + NSM0 (R328). -/
def GroupCounts.dsmul (c : GroupCounts) (kbits : Nat) : Nat := kbits * (2 * c.group + c.nsel) + c.nsm0

/-- The constraints of R328 on the three counts: NOPS(DADD) and NSEL at least 1, every count below 2^32. -/
def GroupCounts.legal (c : GroupCounts) (kbits : Nat) : Bool :=
  decide (1 ≤ c.group) && decide (1 ≤ c.nsel) && decide (c.group < 2 ^ 32) && decide (c.dsmul kbits < 2 ^ 32)

/-- The implementation's counts: any legal ones (R328). The other branch keeps the law where the free constants
happen to break it (log entry 2). -/
def groupCounts (kbits : Nat) : GroupCounts :=
  let c : GroupCounts := ⟨Config.nopsGroup kbits, Config.nsel kbits, Config.nsm0 kbits⟩
  if c.legal kbits then c else ⟨1, 1, 0⟩

/-- NOPS of a command that is no group operation: any count from 1 to 2^32 - 1 (R328, log entry 2). -/
def plainCount (kbits : Nat) (i : Instr) : Nat :=
  let n := Config.nopsRow (opcode i).toNat kbits
  if 1 ≤ n ∧ n < 2 ^ 32 then n else 1

/-- NOPS(op), a function of the opcode and KBITS only (R27, R327, R328). -/
def nops (kbits : Nat) : Instr → Nat
  | .dadd  => (groupCounts kbits).group
  | .ddbl  => (groupCounts kbits).group
  | .dsmul => (groupCounts kbits).dsmul kbits
  | .init  => plainCount kbits .init
  | .fadd  => plainCount kbits .fadd
  | .fsub  => plainCount kbits .fsub
  | .fmul  => plainCount kbits .fmul
  | .fneg  => plainCount kbits .fneg
  | .finv  => plainCount kbits .finv
  | .fsel  => plainCount kbits .fsel
  | .movfa => plainCount kbits .movfa
  | .movfb => plainCount kbits .movfb
  | .did   => plainCount kbits .did
  | .dchk  => plainCount kbits .dchk
  | .dnorm => plainCount kbits .dnorm
  | .movra => plainCount kbits .movra
  | .movrb => plainCount kbits .movrb

/-! ### Latencies

A model represents no time (R149): a step is a completion, whenever it falls, and no step reads these (log entry 7). -/

/-- LAT of a command that is no group operation: at least 1 cycle (R364). -/
def plainLatency (kbits : Nat) (i : Instr) : Nat := max 1 (Config.latRow (opcode i).toNat kbits)

/-- LAT(op), the clock cycles from acceptance to completion, a function of the opcode and KBITS only (R8, R27, R364). -/
def latency (kbits : Nat) : Instr → Nat
  | .dadd  => max 1 (Config.latGroup kbits)
  | .ddbl  => max 1 (Config.latGroup kbits)
  | .dsmul => plainLatency kbits .dsmul
  | .init  => plainLatency kbits .init
  | .fadd  => plainLatency kbits .fadd
  | .fsub  => plainLatency kbits .fsub
  | .fmul  => plainLatency kbits .fmul
  | .fneg  => plainLatency kbits .fneg
  | .finv  => plainLatency kbits .finv
  | .fsel  => plainLatency kbits .fsel
  | .movfa => plainLatency kbits .movfa
  | .movfb => plainLatency kbits .movfb
  | .did   => plainLatency kbits .did
  | .dchk  => plainLatency kbits .dchk
  | .dnorm => plainLatency kbits .dnorm
  | .movra => plainLatency kbits .movra
  | .movrb => plainLatency kbits .movrb

/-- LATF(op, code), the latency of a faulting command: at least 1, and else unconstrained (R149, R366). -/
def faultLatency (op : Opcode) (code : FaultCode) : Nat := max 1 (Config.latFault op.toNat code.code.toNat)

/-! ### The completion step -/

/-- What a completion without fault writes besides the command's own destinations (R142, R147): OPCNT, the hook
trace when HOOKEN was sampled 1, BUSY 0 and DONE 1. -/
def finish (i : Instr) (s : State) : State :=
  { s with
    opcnt := BitVec.ofNat 32 (nops s.kbits i)
    hooks := if s.hookSnapshot then s.hooks ++ hookSeq s.kbits i else s.hooks
    pending := none
    done := true }

/-- Complete() of R142 for a command whose checks answer `check` and whose Execute block is `effect`: the first
failing check is raised, and otherwise the effect happens and the command finishes. -/
def complete (i : Instr) (check : State → Option FaultCode) (effect : State → State) (s : State) :
    Host.Outcome State Fault Refusal :=
  match check s with
  | some code => .next (raiseFault code s)
  | none => .next (finish i (effect s))

/-- The completion of an illegal command word: ILLEGAL_CMD before any other check (R112, R114, R146). -/
def completeIllegal (s : State) : Host.Outcome State Fault Refusal := .next (raiseFault .illegalCmd s)

/-- No check (R167, R235, R238). -/
def noChecks (_ : State) : Option FaultCode := none

/-! ### The R set -/

/-- WriteDiv(u, v): all seven registers of R at once (R234). -/
def writeDiv (u v : Poly) (s : State) : State := { s with r := DivRegs.ofPair u v }

/-- `write a draw to R` (R15, R234, R269): seven values under no law, and the next draw is another one. -/
def drawR (s : State) : State := { s with r := DivRegs.draw s.draws, draws := s.draws + 1 }

/-! ### The hardware reset input -/

/-- The hook events that a command had emitted when the hardware reset abandoned it: a prefix, drawn, of the
HOOKSEQ of the opcode field of its word (R353, log entry 6). -/
def abandonedEvents (n : Nat) (kbits : Nat) (c : Pending) : List HookEvent :=
  if c.hooken then (hookSeqOfOp kbits (opField c.cw)).take (Config.drawPrefix n) else []

/-- rst_n asserted (R350, R351, R353): the pending command, if any, is abandoned without a result. -/
def hardReset (s : State) : State :=
  match s.pending with
  | none => resetCore s
  | some c => resetCore { s with hooks := s.hooks ++ abandonedEvents s.draws s.kbits c, draws := s.draws + 1 }

end Sys2Proof.Machine
end

