-- ==== Sys2Proof/Machine/Prime.lean ====
section
/-! DEFINITION. PrimeP of R19, decided exactly: trial division, and the Lucas-Lehmer test for the moduli of the form
2^n - 1, of which the reference modulus 2^127 - 1 is one (95_test_vectors.md). Sys2Proof/Laws/Arith.lean proves it
equal to `Nat.Prime`. -/

namespace Sys2Proof.Machine

/-- No number from `d` up divides `p`, looking at most `fuel` of them and stopping above the square root. -/
def noDivisorFrom (p : Nat) : (fuel : Nat) → (d : Nat) → Bool
  | 0, _ => true
  | n + 1, d => if p < d * d then true else if p % d = 0 then false else noDivisorFrom p n (d + 1)

/-- Trial division. -/
def trialPrime (p : Nat) : Bool := decide (2 ≤ p) && noDivisorFrom p p 2

/-- The Lucas-Lehmer sequence modulo `q`. -/
def lucasLehmerSeq (q : Nat) : Nat → Nat
  | 0 => 4 % q
  | k + 1 => (lucasLehmerSeq q k * lucasLehmerSeq q k + (q - 2)) % q

/-- `p` is 2^n - 1 with n at least 3, and the Lucas-Lehmer test says that it is prime. -/
def mersennePrime (p : Nat) : Bool :=
  let n := Nat.log2 (p + 1)
  decide (p + 1 = 2 ^ n) && decide (3 ≤ n) && decide (lucasLehmerSeq p (n - 2) = 0)

/-- PrimeP of R19. -/
def primeP (p : Nat) : Bool := mersennePrime p || trialPrime p

end Sys2Proof.Machine
end

