-- ==== Sys2Proof/Machine/Divisor.lean ====
section
/-! DEFINITION. The divisor predicates and the checks built on them: StrictOK, Member, NormOK (43_divisor.md R231 to
R233), GroupChecks (R265) and the valid domain (R19). -/

namespace Sys2Proof.Machine

/-- The coefficient at a stored degree (R230, R231): 0 for a degree below 0. -/
def coeffAt (a : Poly) (d : Int) : Nat := if d < 0 then 0 else coeff a d.toNat

/-- Every coefficient of the two polynomials is below p (R231, R233). -/
def DivRegs.reduced (p : Nat) (D : DivRegs) : Bool := D.u.all (fun c => decide (c < p)) && D.v.all (fun c => decide (c < p))

/-- Every slot above a stored degree is zero (R231, R233), `n` the number of slots. -/
def zeroAbove (a : Poly) (d : Int) (n : Nat) : Bool :=
  (List.range n).all (fun i => decide ((i : Int) ≤ d) || coeff a i == 0)

/-- The stored degrees are legal: du in 0, 1, 2 and dv in -1, 0, 1 (R118). -/
def DivRegs.degreesLegal (D : DivRegs) : Bool :=
  [0, 1, 2].contains D.du && [-1, 0, 1].contains D.dv

/-- StrictOK(D), the structural check of a group-command input (R231). -/
def strictOK (p : Nat) (D : DivRegs) : Bool :=
  D.degreesLegal && decide (D.dv < D.du) && D.reduced p &&
    zeroAbove D.u D.du 3 && zeroAbove D.v D.dv 2 &&
    (coeffAt D.u D.du == 1) && (decide (D.dv = -1) || coeffAt D.v D.dv != 0)

/-- NormOK(D), the structural check of a DNORM input (R233). -/
def normOK (p : Nat) (D : DivRegs) : Bool :=
  D.degreesLegal && D.reduced p && zeroAbove D.u D.du 3 && zeroAbove D.v D.dv 2 && (coeffAt D.u D.du != 0)

/-- Member(D): (v^2 + h·v - f) mod u = 0 in Fp[x] (R232). -/
def member (p : Nat) (f h : Poly) (D : DivRegs) : Bool :=
  trim (pmod p (psub p (padd p (pmul p D.v D.v) (pmul p h D.v)) f) D.u) == []

/-- g = 4·f + h^2 (R19). -/
def discriminantPoly (p : Nat) (f h : Poly) : Poly := padd p (pscale p (4 % p) f) (pmul p h h)

/-- Nonsingular: g is squarefree, gcd(g, g') = 1 (R19). -/
def nonsingular (p : Nat) (f h : Poly) : Bool :=
  let g := discriminantPoly p f h
  pgcd p g (pderiv p g) == [1]

/-- StrictOK and Member of a divisor set, Member only where StrictOK holds (R19, R236). -/
def State.validDivisor (s : State) (D : DivRegs) : Bool :=
  strictOK s.p D && member s.p s.params.f s.params.h D

/-- VALID(D...) of R19, for the divisors that a command reads. -/
def State.valid (s : State) (Ds : List DivRegs) : Bool :=
  primeP s.p && nonsingular s.p s.params.f s.params.h && Ds.all s.validDivisor

/-- NO_PARAMS if PRM = 0 (R145). -/
def needParams (s : State) : Option FaultCode := if s.prm then none else some .noParams

/-- GroupChecks(S1, ..., Sn; chk) of R265: NO_PARAMS, then every structural check in order, then, with CHKEN
sampled 1, every membership check in order. -/
def groupChecks (Ds : List DivRegs) (s : State) : Option FaultCode :=
  match needParams s with
  | some code => some code
  | none =>
    if !Ds.all (strictOK s.p) then some .badDivisor
    else if s.chkSnapshot && !Ds.all (member s.p s.params.f s.params.h) then some .notOnCurve
    else none

end Sys2Proof.Machine
end

