-- ==== Sys2Proof/Machine/Cantor.lean ====
section
/-! DEFINITION. Cantor composition and reduction (44_cantor.md R260 to R264) and the scalar multiple (45_scalar.md
R291), on Mumford pairs of polynomials. -/

namespace Sys2Proof.Machine

/-- A Mumford pair (u, v) (R17). -/
abbrev Mumford := Poly × Poly

/-- The pair that a divisor set holds (R14, R230). -/
def DivRegs.pair (D : DivRegs) : Mumford := (trim D.u, trim D.v)

/-- The identity (u = 1, v = 0) (R14). -/
def identityPair : Mumford := ([1], [])

/-- Composition (R260). -/
def compose (p : Nat) (f h : Poly) (D1 D2 : Mumford) : Mumford :=
  let (u1, v1) := D1
  let (u2, v2) := D2
  let (d1, e1, e2) := xgcd p u1 u2
  let (d, c1, c2) := xgcd p d1 (padd p (padd p v1 v2) h)
  let s1 := pmul p c1 e1
  let s2 := pmul p c1 e2
  let s3 := c2
  let u' := pdiv p (pmul p u1 u2) (pmul p d d)
  let num := padd p (padd p (pmul p (pmul p s1 u1) v2) (pmul p (pmul p s2 u2) v1))
    (pmul p s3 (padd p (pmul p v1 v2) f))
  (u', pmod p (pdiv p num d) u')

/-- One reduction step (R262). -/
def reduceStep (p : Nat) (f h : Poly) (D : Mumford) : Mumford :=
  let (u, v) := D
  let u' := pmonic p (pdiv p (psub p (psub p f (pmul p h v)) (pmul p v v)) u)
  (u', pmod p (psub p (pneg p h) v) u')

/-- CantorRef(D1, D2): composition, and one reduction step where the composed degree is above 2 (R263, R264). -/
def cantorRef (p : Nat) (f h : Poly) (D1 D2 : Mumford) : Mumford :=
  let D := compose p f h D1 D2
  if 2 < deg D.1 then reduceStep p f h D else D

/-- The loop of SMulRef over bits `n - 1` down to 0 of `k` (R291). -/
def smulLoop (p : Nat) (f h : Poly) (k : Nat) (D : Mumford) : (n : Nat) → (q : Mumford) → Mumford
  | 0, q => q
  | i + 1, q =>
    let q2 := cantorRef p f h q q
    let t := cantorRef p f h q2 D
    smulLoop p f h k D i (if k.testBit i then t else q2)

/-- SMulRef(k, D): KBITS iterations of doubling and addition from the identity (R291, R293). -/
def smulRef (p : Nat) (f h : Poly) (kbits k : Nat) (D : Mumford) : Mumford :=
  smulLoop p f h k D kbits identityPair

end Sys2Proof.Machine
end

