-- ==== Sys2Proof/Machine/CantorUnit.lean ====
section
/-! DEFINITION. DADD and DDBL (44_cantor.md R266, R267). -/

namespace Sys2Proof.Machine

/-- CantorRef on two divisor sets, over the parameter set (R264). -/
def State.cantor (s : State) (D1 D2 : DivRegs) : Mumford :=
  cantorRef s.p s.params.f s.params.h D1.pair D2.pair

/-- Execute of a group command that reads the sets `Ds` and whose reference result is `result`: WriteDiv of the
result in the valid domain, a draw outside it (R19, R266, R267, R269, R292). -/
def groupEffect (Ds : State → List DivRegs) (result : State → Mumford) (s : State) : State :=
  if s.valid (Ds s) then writeDiv (result s).1 (result s).2 s else drawR s

/-- DADD: R <- A + B (R266). -/
def execDadd (s : State) : Host.Outcome State Fault Refusal :=
  complete .dadd (fun s => groupChecks [s.a, s.b] s)
    (groupEffect (fun s => [s.a, s.b]) (fun s => s.cantor s.a s.b)) s

/-- DDBL: R <- A + A; B is neither read nor checked (R267). -/
def execDdbl (s : State) : Host.Outcome State Fault Refusal :=
  complete .ddbl (fun s => groupChecks [s.a] s)
    (groupEffect (fun s => [s.a]) (fun s => s.cantor s.a s.a)) s

end Sys2Proof.Machine
end

