-- ==== Sys2Proof/Machine/Control.lean ====
section
/-! DEFINITION. INIT (40_control.md R143, R144). -/

namespace Sys2Proof.Machine

/-- ParamOK() (R144). -/
def paramOK (c : CurveParams) : Bool :=
  let p := c.p.toNat
  (p % 2 == 1) && decide (3 ≤ p) && (c.f5.toNat == 1) &&
    ([c.f0, c.f1, c.f2, c.f3, c.f4, c.h0, c.h1, c.h2].all fun x => decide (x.toNat < p))

/-- Checks(INIT): REINIT, then BAD_PARAM (R143). -/
def initChecks (s : State) : Option FaultCode :=
  if s.prm then some .reinit else if paramOK s.params then none else some .badParam

/-- INIT: PRM 1 (R143). -/
def execInit (s : State) : Host.Outcome State Fault Refusal :=
  complete .init initChecks (fun s => { s with prm := true }) s

end Sys2Proof.Machine
end

