-- ==== Sys2Proof/Machine/DivisorUnit.lean ====
section
/-! DEFINITION. The divisor unit's commands (43_divisor.md R235 to R239). -/

namespace Sys2Proof.Machine

/-- DID: R <- the identity divisor (R235). -/
def execDid (s : State) : Host.Outcome State Fault Refusal :=
  complete .did noChecks (writeDiv [1] []) s

/-- DCHK: CHK <- StrictOK(A) and Member(A); a bad divisor is no fault (R236). -/
def execDchk (s : State) : Host.Outcome State Fault Refusal :=
  complete .dchk needParams (fun s => { s with chk := s.validDivisor s.a }) s

/-- Checks(DNORM): NO_PARAMS, then BAD_DIVISOR where NormOK fails (R237). -/
def dnormChecks (s : State) : Option FaultCode :=
  match needParams s with
  | some code => some code
  | none => if normOK s.p s.a then none else some .badDivisor

/-- The monic normalization of a divisor: u' = invp(u[du])·u and v' = v mod u' (R237). -/
def normalize (p : Nat) (D : DivRegs) : Poly × Poly :=
  let u' := pscale p (invp p (coeffAt D.u D.du)) D.u
  (u', pmod p D.v u')

/-- Execute(DNORM): the normalized divisor where p is prime, and a draw where it is not (R237). -/
def dnormEffect (s : State) : State :=
  if primeP s.p then writeDiv (normalize s.p s.a).1 (normalize s.p s.a).2 s else drawR s

/-- DNORM (R237). -/
def execDnorm (s : State) : Host.Outcome State Fault Refusal :=
  complete .dnorm dnormChecks dnormEffect s

/-- MOVRA: the A set <- the R set, all seven registers, as stored (R238). -/
def execMovra (s : State) : Host.Outcome State Fault Refusal :=
  complete .movra noChecks (fun s => { s with a := s.r }) s

/-- MOVRB: the B set <- the R set, all seven registers, as stored (R239). -/
def execMovrb (s : State) : Host.Outcome State Fault Refusal :=
  complete .movrb noChecks (fun s => { s with b := s.r }) s

end Sys2Proof.Machine
end

