-- ==== Sys2Proof/Machine/Field.lean ====
section
/-! DEFINITION. The field unit's commands (41_field.md R160 to R168). -/

namespace Sys2Proof.Machine

/-- A field operand is in range when it is below p (R117). -/
def State.inRange (s : State) (x : FieldWord) : Bool := decide (x.toNat < s.p)

/-- The checks of a command that reads FA and FB: NO_PARAMS, then RANGE (R160). -/
def checkFAFB (s : State) : Option FaultCode :=
  match needParams s with
  | some code => some code
  | none => if s.inRange s.fa && s.inRange s.fb then none else some .range

/-- The checks of a command that reads FA only (R160). -/
def checkFA (s : State) : Option FaultCode :=
  match needParams s with
  | some code => some code
  | none => if s.inRange s.fa then none else some .range

/-- `reg(FR) <- v` (R41). -/
def writeFR (v : Nat) (s : State) : State := { s with fr := BitVec.ofNat 128 v }

/-- FADD: FR <- (a + b) mod p (R161). -/
def execFadd (s : State) : Host.Outcome State Fault Refusal :=
  complete .fadd checkFAFB (fun s => writeFR (addp s.p s.fa.toNat s.fb.toNat) s) s

/-- FSUB: FR <- (a - b) mod p (R162). -/
def execFsub (s : State) : Host.Outcome State Fault Refusal :=
  complete .fsub checkFAFB (fun s => writeFR (subp s.p s.fa.toNat s.fb.toNat) s) s

/-- FMUL: FR <- (a * b) mod p (R163). -/
def execFmul (s : State) : Host.Outcome State Fault Refusal :=
  complete .fmul checkFAFB (fun s => writeFR (mulp s.p s.fa.toNat s.fb.toNat) s) s

/-- FNEG: FR <- (p - a) mod p; FB is not read (R164). -/
def execFneg (s : State) : Host.Outcome State Fault Refusal :=
  complete .fneg checkFA (fun s => writeFR (negp s.p s.fa.toNat) s) s

/-- FINV: FR <- a^(p-2) mod p; FB is not read (R165). -/
def execFinv (s : State) : Host.Outcome State Fault Refusal :=
  complete .finv checkFA (fun s => writeFR (invp s.p s.fa.toNat) s) s

/-- FSEL: FR <- the masked select of FA and FB by FC bit 0; both are range-checked (R166). -/
def execFsel (s : State) : Host.Outcome State Fault Refusal :=
  complete .fsel checkFAFB (fun s => { s with fr := maskedSelect s.sel s.fa s.fb }) s

/-- MOVFA: FA <- FR, as stored (R167). -/
def execMovfa (s : State) : Host.Outcome State Fault Refusal :=
  complete .movfa noChecks (fun s => { s with fa := s.fr }) s

/-- MOVFB: FB <- FR, as stored (R168). -/
def execMovfb (s : State) : Host.Outcome State Fault Refusal :=
  complete .movfb noChecks (fun s => { s with fb := s.fr }) s

end Sys2Proof.Machine
end

