-- ==== Sys2Proof/Machine/ScalarUnit.lean ====
section
/-! DEFINITION. DSMUL (45_scalar.md R292). -/

namespace Sys2Proof.Machine

/-- SMulRef(k, A) over the parameter set (R290, R291). -/
def State.smul (s : State) : Mumford :=
  smulRef s.p s.params.f s.params.h s.kbits s.scalar s.a.pair

/-- DSMUL: R <- k·A; K is not checked (R292). -/
def execDsmul (s : State) : Host.Outcome State Fault Refusal :=
  complete .dsmul (fun s => groupChecks [s.a] s)
    (groupEffect (fun s => [s.a]) State.smul) s

end Sys2Proof.Machine
end

