-- ==== Sys2Proof/Machine/Dispatch.lean ====
section
/-! DEFINITION. The completion of each command (R142): one arm per row of the opcode table (R113). -/

namespace Sys2Proof.Machine

def exec (i : Instr) (s : State) : Host.Outcome State Fault Refusal :=
  match i with
  | .init => Sys2Proof.Machine.execInit s
  | .fadd => Sys2Proof.Machine.execFadd s
  | .fsub => Sys2Proof.Machine.execFsub s
  | .fmul => Sys2Proof.Machine.execFmul s
  | .fneg => Sys2Proof.Machine.execFneg s
  | .finv => Sys2Proof.Machine.execFinv s
  | .fsel => Sys2Proof.Machine.execFsel s
  | .movfa => Sys2Proof.Machine.execMovfa s
  | .movfb => Sys2Proof.Machine.execMovfb s
  | .did => Sys2Proof.Machine.execDid s
  | .dchk => Sys2Proof.Machine.execDchk s
  | .dnorm => Sys2Proof.Machine.execDnorm s
  | .movra => Sys2Proof.Machine.execMovra s
  | .movrb => Sys2Proof.Machine.execMovrb s
  | .dadd => Sys2Proof.Machine.execDadd s
  | .ddbl => Sys2Proof.Machine.execDdbl s
  | .dsmul => Sys2Proof.Machine.execDsmul s

end Sys2Proof.Machine
end

