-- ==== Sys2Proof/Machine/Window.lean ====
section
/-! DEFINITION. The register window (20_memory.md): the address map (R81, R57), the read and write primitives
(R84, R85) and bus transactions (R82, R83). -/

namespace Sys2Proof.Machine

/-- The parameter staging registers (R37). -/
inductive ParamReg where
  | p | f0 | f1 | f2 | f3 | f4 | f5 | h0 | h1 | h2
deriving DecidableEq, Repr

/-- The divisor operand sets (R42). -/
inductive DivSet where
  | a | b | r
deriving DecidableEq, Repr

/-- The coefficient registers of a divisor set (R42). -/
inductive Coef where
  | u0 | u1 | u2 | v0 | v1
deriving DecidableEq, Repr

/-- The stored degree registers of a divisor set (R42). -/
inductive Degree where
  | degu | degv
deriving DecidableEq, Repr

/-- The words of the window that belong to a register (R57, R81). -/
inductive RegWord where
  | id | ctrl | cmd | status | opcnt | kbits
  | param (q : ParamReg) (w : Fin 4)
  | fa (w : Fin 4)
  | fb (w : Fin 4)
  | fr (w : Fin 4)
  | fc
  | coef (S : DivSet) (c : Coef) (w : Fin 4)
  | degree (S : DivSet) (d : Degree)
  | k (w : Fin 8)
deriving DecidableEq, Repr

/-- Staging register number `n` in offset order (R37). -/
def paramAt : Nat → Option ParamReg
  | 0 => some .p
  | 1 => some .f0
  | 2 => some .f1
  | 3 => some .f2
  | 4 => some .f3
  | 5 => some .f4
  | 6 => some .f5
  | 7 => some .h0
  | 8 => some .h1
  | 9 => some .h2
  | _ => none

/-- Coefficient register number `n` of a divisor set (R42). -/
def coefAt : Nat → Option Coef
  | 0 => some .u0
  | 1 => some .u1
  | 2 => some .u2
  | 3 => some .v0
  | 4 => some .v1
  | _ => none

/-- The word of a divisor set at offset `o` from its base (R42). -/
def divWordAt (S : DivSet) (o : Nat) : Option RegWord :=
  if o = 0x50 then some (.degree S .degu)
  else if o = 0x54 then some (.degree S .degv)
  else (coefAt (o / 16)).map (fun c => .coef S c (Fin.ofNat 4 (o / 4)))

/-- The words of the field unit at offset `o` from 0x100 (R40, R41). -/
def fieldWordAt (o : Nat) : Option RegWord :=
  match o / 16 with
  | 0 => some (.fa (Fin.ofNat 4 (o / 4)))
  | 1 => some (.fb (Fin.ofNat 4 (o / 4)))
  | 2 => some (.fr (Fin.ofNat 4 (o / 4)))
  | 3 => if o = 0x30 then some .fc else none
  | _ => none

/-- The words below 0x100: control, status and staging (R31 to R37). -/
def controlWordAt (o : Nat) : Option RegWord :=
  match o with
  | 0x000 => some .id
  | 0x004 => some .ctrl
  | 0x008 => some .cmd
  | 0x00C => some .status
  | 0x010 => some .opcnt
  | 0x014 => some .kbits
  | _ => if o < 0x20 then none else (paramAt (o / 16 - 2)).map (fun q => .param q (Fin.ofNat 4 (o / 4)))

/-- The register word at a word offset; `none` is a reserved offset (R81, R90). -/
def locate (off : Offset) : Option RegWord :=
  let o := off.toNat % 0x100
  match off.toNat / 0x100 with
  | 0 => controlWordAt o
  | 1 => fieldWordAt o
  | 2 => divWordAt .a o
  | 3 => divWordAt .b o
  | 4 => divWordAt .r o
  | 5 => if o < 0x20 then some (.k (Fin.ofNat 8 (o / 4))) else none
  | _ => none

/-- Read a staging register. -/
def CurveParams.get (c : CurveParams) : ParamReg → FieldWord
  | .p => c.p
  | .f0 => c.f0
  | .f1 => c.f1
  | .f2 => c.f2
  | .f3 => c.f3
  | .f4 => c.f4
  | .f5 => c.f5
  | .h0 => c.h0
  | .h1 => c.h1
  | .h2 => c.h2

/-- Replace a staging register. -/
def CurveParams.set (c : CurveParams) (q : ParamReg) (v : FieldWord) : CurveParams :=
  match q with
  | .p => { c with p := v }
  | .f0 => { c with f0 := v }
  | .f1 => { c with f1 := v }
  | .f2 => { c with f2 := v }
  | .f3 => { c with f3 := v }
  | .f4 => { c with f4 := v }
  | .f5 => { c with f5 := v }
  | .h0 => { c with h0 := v }
  | .h1 => { c with h1 := v }
  | .h2 => { c with h2 := v }

/-- Read a coefficient register of a divisor set. -/
def DivRegs.getCoef (D : DivRegs) : Coef → FieldWord
  | .u0 => D.u0
  | .u1 => D.u1
  | .u2 => D.u2
  | .v0 => D.v0
  | .v1 => D.v1

/-- Replace a coefficient register of a divisor set. -/
def DivRegs.setCoef (D : DivRegs) (c : Coef) (v : FieldWord) : DivRegs :=
  match c with
  | .u0 => { D with u0 := v }
  | .u1 => { D with u1 := v }
  | .u2 => { D with u2 := v }
  | .v0 => { D with v0 := v }
  | .v1 => { D with v1 := v }

/-- Read a stored degree register of a divisor set. -/
def DivRegs.getDegree (D : DivRegs) : Degree → Word
  | .degu => D.degu
  | .degv => D.degv

/-- Replace a stored degree register of a divisor set. -/
def DivRegs.setDegree (D : DivRegs) (d : Degree) (w : Word) : DivRegs :=
  match d with
  | .degu => { D with degu := w }
  | .degv => { D with degv := w }

/-- Read a divisor set. -/
def State.divSet (s : State) : DivSet → DivRegs
  | .a => s.a
  | .b => s.b
  | .r => s.r

/-- Replace a divisor set that the host may write; R is read-only to it (R42, R44). -/
def State.hostSetDiv (s : State) (S : DivSet) (D : DivRegs) : State :=
  match S with
  | .a => { s with a := D }
  | .b => { s with b := D }
  | .r => s

/-- A register word that reads as 0 while BUSY: FR and the R set (R86). -/
def RegWord.isResult : RegWord → Bool
  | .fr _ => true
  | .coef .r _ _ => true
  | .degree .r _ => true
  | _ => false

/-- The content of a register word as a read returns it when no result is hidden (R84): CMD and K read 0 (R33,
R46). -/
def readReg (s : State) : RegWord → Word
  | .id => 0x48424432
  | .ctrl => s.ctrlWord
  | .cmd => 0
  | .status => s.statusWord
  | .opcnt => s.opcnt
  | .kbits => BitVec.ofNat 32 s.kbits
  | .param q w => getWord (s.params.get q) w
  | .fa w => getWord s.fa w
  | .fb w => getWord s.fb w
  | .fr w => getWord s.fr w
  | .fc => flagAt s.sel 0
  | .coef S c w => getWord ((s.divSet S).getCoef c) w
  | .degree S d => (s.divSet S).getDegree d
  | .k _ => 0

/-- MemRead(off, 4) for an aligned word access (R84): no side effect (R91). -/
def memRead (off : Offset) (s : State) : Word :=
  match locate off with
  | none => 0
  | some g => if s.busy && g.isResult then 0 else readReg s g

/-- The write of a register word while the core is idle (R85): read-only words ignore it. -/
def writeReg (g : RegWord) (w : Word) (s : State) : State :=
  match g with
  | .cmd => if s.fault then s else accept w s
  | .ctrl => if w.getLsbD 31 then resetCore s else writeCtrl w s
  | .param q i => if s.prm then s else { s with params := s.params.set q (setWord (s.params.get q) i w) }
  | .fa i => { s with fa := setWord s.fa i w }
  | .fb i => { s with fb := setWord s.fb i w }
  | .fc => { s with sel := w.getLsbD 0 }
  | .coef S c i => s.hostSetDiv S ((s.divSet S).setCoef c (setWord ((s.divSet S).getCoef c) i w))
  | .degree S d => s.hostSetDiv S ((s.divSet S).setDegree d w)
  | .k i => { s with k := setScalarWord s.kbits s.k i w }
  | .status => writeStatus w s
  | .id => s
  | .opcnt => s
  | .kbits => s
  | .fr _ => s

/-- MemWrite(off, 4, wdata) for an aligned word access (R85): STATUS always, every other write dropped with OVR set
while BUSY (R87), reserved offsets ignored (R90). -/
def memWrite (off : Offset) (w : Word) (s : State) : State :=
  if locate off = some .status then writeStatus w s
  else if s.busy then { s with ovr := true }
  else
    match locate off with
    | none => s
    | some g => writeReg g w s

/-- Append a response to those given so far. -/
def State.respond (s : State) (r : Response) : State := { s with resps := s.resps ++ [r] }

/-- A bus transaction (R82): ERR with rdata 0 and no other effect where it is narrow or misaligned (R83). -/
def busAccess (t : Txn) (s : State) : State :=
  if t.wellFormed then
    match t.rw with
    | .read => s.respond ⟨.okay, some (memRead t.off s)⟩
    | .write => (memWrite t.off t.wdata s).respond ⟨.okay, none⟩
  else s.respond ⟨.err, some 0⟩

/-- What a host transaction or the hardware reset input does (R93, R350). The sequencer's turn is not the host's and
is taken in `step`. -/
def envAccess (e : EnvEvent) (s : State) : State :=
  match e with
  | .bus t => busAccess t s
  | .hardReset => hardReset s
  | .sequencer => s

end Sys2Proof.Machine
end

