-- ==== Sys2Proof/Machine/Step.lean ====
section
/-! DEFINITION. One step of the machine: a host transaction, the hardware reset, or the sequencer's completion step
(R30, R93, R94, R142, R149). -/

namespace Sys2Proof.Machine

/-- The sequencer's turn: its one step kind, enabled exactly when BUSY = 1 (R142). The pending word is decoded and
its command completes; an illegal word completes with ILLEGAL_CMD (R146). Where it is not enabled, nothing happens. -/
def sequencerTurn (s : State) : Host.Outcome State Fault Refusal :=
  match s.pending with
  | none => .next s
  | some c =>
    match decode c.cw with
    | .ok i => exec i s
    | .error _ => completeIllegal s

/-- One step. The environment's list says who moves next (R94, R149). When it is empty, the sequencer moves: so a
pending command is always completed in the end (R149), and an idle core waits (R354). -/
def step (s : State) : Host.Outcome State Fault Refusal :=
  match s.env with
  | [] => sequencerTurn s
  | .sequencer :: es => sequencerTurn { s with env := es }
  | .bus t :: es => .next (envAccess (.bus t) { s with env := es })
  | .hardReset :: es => .next (envAccess .hardReset { s with env := es })

/-- `s` with a command word accepted, as a CMD write of it would do (R140), and with the sequencer's turn next. -/
def State.withFetchWord (s : State) (nbits w : Nat) : State :=
  { accept (tableWord nbits w) s with env := .sequencer :: s.env }

end Sys2Proof.Machine
end

