-- ==== Sys2Proof/Machine/HostAsm.lean ====
section
/-! DEFINITION. Host assembly (30_encoding.md R121 to R123): the two base statements and the pseudo-instructions, as
lists of what the environment does, and the values that the reading statements bind. `wait` is a loop of the host: a
list is a course of it, with any number of polls, or it is not (`isWait`, log entry 16). -/

namespace Sys2Proof.Machine.HostAsm

/-! ### What a list of events does -/

/-- What the sequencer's turn leaves: a turn always answers a next state (R28, R310). -/
def turn (s : State) : State :=
  match sequencerTurn s with
  | .next t => t
  | .fault code => nomatch code
  | .refused _ => s

/-- What an event of the environment leaves (R93, R94). -/
def happen (s : State) : EnvEvent → State
  | .sequencer => turn s
  | .bus t => envAccess (.bus t) s
  | .hardReset => envAccess .hardReset s

/-- What a list of events leaves, one after the other (R93). -/
def perform (es : List EnvEvent) (s : State) : State := es.foldl happen s

/-- The responses that a list of events is given (R82). -/
def answers (es : List EnvEvent) (s : State) : List Response := (perform es s).resps.drop s.resps.length

/-! ### Names of registers -/

/-- Position of a staging register in offset order (R37). -/
def paramIndex : ParamReg → Nat
  | .p => 0
  | .f0 => 1
  | .f1 => 2
  | .f2 => 3
  | .f3 => 4
  | .f4 => 5
  | .f5 => 6
  | .h0 => 7
  | .h1 => 8
  | .h2 => 9

/-- Base of a divisor set (R42). -/
def divBase : DivSet → Nat
  | .a => 0x200
  | .b => 0x300
  | .r => 0x400

/-- Offset of a coefficient register from the base of its set (R42). -/
def coefOffset : Coef → Nat
  | .u0 => 0x00
  | .u1 => 0x10
  | .u2 => 0x20
  | .v0 => 0x30
  | .v1 => 0x40

/-- Offset of a stored degree register from the base of its set (R42). -/
def degreeOffset : Degree → Nat
  | .degu => 0x50
  | .degv => 0x54

/-- The offset a register word's name stands for (R57, R121). -/
def offsetOf : RegWord → Offset
  | .id => 0x000
  | .ctrl => 0x004
  | .cmd => 0x008
  | .status => 0x00C
  | .opcnt => 0x010
  | .kbits => 0x014
  | .param q w => BitVec.ofNat 12 (0x020 + 16 * paramIndex q + 4 * w.val)
  | .fa w => BitVec.ofNat 12 (0x100 + 4 * w.val)
  | .fb w => BitVec.ofNat 12 (0x110 + 4 * w.val)
  | .fr w => BitVec.ofNat 12 (0x120 + 4 * w.val)
  | .fc => 0x130
  | .coef S c w => BitVec.ofNat 12 (divBase S + coefOffset c + 4 * w.val)
  | .degree S d => BitVec.ofNat 12 (divBase S + degreeOffset d)
  | .k w => BitVec.ofNat 12 (0x500 + 4 * w.val)

/-! ### Statements -/

/-- `wr OFF, VAL` (R121). -/
def wr (off : Offset) (val : Word) : EnvEvent := .bus ⟨.write, off, .word, val⟩

/-- `rd OFF` (R121). -/
def rd (off : Offset) : EnvEvent := .bus ⟨.read, off, .word, 0⟩

/-- `cmd MNEMONIC` (R122). -/
def cmd (i : Instr) : EnvEvent := wr (offsetOf .cmd) (encode i)

/-- `rd STATUS`, one poll of the loop `wait` (R122). -/
def poll : EnvEvent := rd (offsetOf .status)

/-- `es` is a course of the loop `wait` from the state `s` (R122): polls of STATUS, up to and with the first whose bit 0
(BUSY) reads 0, and between them whatever turns the sequencer takes and resets fall (R94, R149, R353). -/
def isWait (s : State) : List EnvEvent → Bool
  | [] => false
  | .sequencer :: es => isWait (turn s) es
  | .hardReset :: es => isWait (hardReset s) es
  | .bus t :: es =>
    EnvEvent.bus t == poll &&
      (if (memRead (offsetOf .status) s).getLsbD 0 then isWait (busAccess t s) es else es.isEmpty)

/-- `es` is a course of `run MNEMONIC`: `cmd`, then a course of `wait` (R122). -/
def isRun (i : Instr) (s : State) : List EnvEvent → Bool
  | [] => false
  | e :: es => e == cmd i && isWait (happen s e) es

/-- The course of `wait` in which `polls` polls find the core BUSY, the completion falls after them, and one poll more
ends the loop: any number of polls is possible (R122, R149). -/
def wait (polls : Nat) : List EnvEvent := List.replicate polls poll ++ [.sequencer, poll]

/-- `run MNEMONIC`, in the course of `wait` with `polls` polls before the completion (R122). -/
def run (i : Instr) (polls : Nat) : List EnvEvent := cmd i :: wait polls

/-- The four writes of `ldf REG, V`, lowest word first, for the register whose words are `g` (R122). -/
def ldf (g : Fin 4 → RegWord) (v : FieldWord) : List EnvEvent :=
  [0, 1, 2, 3].map (fun i => wr (offsetOf (g i)) (getWord v i))

/-- `ldd S, D` (R122), with the divisor as the seven registers hold it. -/
def ldd (S : DivSet) (D : DivRegs) : List EnvEvent :=
  ldf (.coef S .u0) D.u0 ++ ldf (.coef S .u1) D.u1 ++ ldf (.coef S .u2) D.u2 ++ ldf (.coef S .v0) D.v0 ++
    ldf (.coef S .v1) D.v1 ++ [wr (offsetOf (.degree S .degu)) D.degu, wr (offsetOf (.degree S .degv)) D.degv]

/-- `ldk V`: eight writes, low word first (R122). -/
def ldk (v : ScalarWord) : List EnvEvent :=
  [0, 1, 2, 3, 4, 5, 6, 7].map (fun i : Fin 8 => wr (offsetOf (.k i)) (v.extractLsb' (32 * i.val) 32))

/-- The reads of `rdf REG` (R122). -/
def rdf (g : Fin 4 → RegWord) : List EnvEvent := [0, 1, 2, 3].map (fun i => rd (offsetOf (g i)))

/-- The reads of `rdd R` (R122). -/
def rdd : List EnvEvent :=
  rdf (.coef .r .u0) ++ rdf (.coef .r .u1) ++ rdf (.coef .r .u2) ++ rdf (.coef .r .v0) ++ rdf (.coef .r .v1) ++
    [rd (offsetOf (.degree .r .degu)), rd (offsetOf (.degree .r .degv))]

/-- The writes of `init P=..., F=..., H=...` (R122). -/
def loadParams (c : CurveParams) : List EnvEvent :=
  [ParamReg.p, .f0, .f1, .f2, .f3, .f4, .f5, .h0, .h1, .h2].flatMap (fun q => ldf (.param q) (c.get q))

/-- `init P=..., F=..., H=...`: the writes and `run INIT`, with `polls` polls before the completion (R122). -/
def init (c : CurveParams) (polls : Nat) : List EnvEvent := loadParams c ++ run .init polls

/-- `ctrl BITS` (R122). -/
def ctrl (bits : Word) : EnvEvent := wr (offsetOf .ctrl) bits

/-- `clr`: clears DONE and OVR (R122). -/
def clr : EnvEvent := wr (offsetOf .status) 0x0000000A

/-- `srst` (R122). -/
def srst : EnvEvent := wr (offsetOf .ctrl) 0x80000000

/-! ### The values that reading statements bind -/

/-- The data of a list of responses, in order. -/
def readData (rs : List Response) : List Word := rs.filterMap Response.rdata

/-- Σ word_i·2^(32i), the lowest word first (R88, R122). -/
def joinWords : List Word → Nat
  | [] => 0
  | w :: ws => w.toNat + 2 ^ 32 * joinWords ws

/-- The value of `rd OFF -> NAME`, from its response (R121). -/
def rdValue (rs : List Response) : Word := (readData rs).headD 0

/-- The value of `rdf REG -> NAME`, from its four responses (R122). -/
def rdfValue (rs : List Response) : Nat := joinWords (readData rs)

/-- The value of `rdd R -> NAME`, from its 22 responses: four words for each of u0, u1, u2, v0, v1, then du and dv
(R122). -/
def rddValue (rs : List Response) : DivRegs :=
  let ws := readData rs
  let field := fun i => BitVec.ofNat 128 (joinWords ((ws.drop (4 * i)).take 4))
  { u0 := field 0, u1 := field 1, u2 := field 2, v0 := field 3, v1 := field 4
    degu := ws.getD 20 0, degv := ws.getD 21 0 }

end Sys2Proof.Machine.HostAsm
end

