-- ==== Sys2Proof/Safety.lean ====
section
/-! DEFINITION. The terms that claims use: the invariant of the core, the events that reset it, the reset state in
full, and what it means that a coefficient list stands for a polynomial over Fp. -/

namespace Sys2Proof.Machine

/-- FCODE is 0x00 exactly when FAULT = 0 (R34); in the fault state the core is idle and DONE is 0 (R148, R312, R318). -/
abbrev State.FaultConsistent (s : State) : Prop :=
  (s.fcode = .none ↔ s.fault = false) ∧ (s.fault = true → s.busy = false ∧ s.done = false)

/-- While BUSY, DONE is 0 (R140), the sampled bits are the bits of CTRL (R150) and LASTOP is the opcode of the
pending word (R53). -/
abbrev State.PendingConsistent (s : State) : Prop :=
  (s.busy = true → s.done = false) ∧
  s.pending.all (fun c => c.chken == s.chken && c.hooken == s.hooken && s.lastop == opField c.cw) = true

/-- The parameter set is a checked one while PRM = 1 (R39); without one no command that needs it has run, so that FR
and CHK are as reset left them (R145); with one FR is a field element (R169). -/
abbrev State.ParamsConsistent (s : State) : Prop :=
  (s.prm = true → paramOK s.params = true ∧ s.fr.toNat < s.p) ∧
  (s.prm = false → s.fr = 0 ∧ s.chk = false)

/-- Unimplemented bits of K hold nothing (R45). -/
abbrev State.ScalarConsistent (s : State) : Prop := s.k.toNat < 2 ^ s.kbits

/-- The invariant of the core. -/
abbrev State.Inv (s : State) : Prop :=
  s.FaultConsistent ∧ s.PendingConsistent ∧ s.ParamsConsistent ∧ s.ScalarConsistent

/-- The next event resets the core: the hardware reset input (R350), or a CTRL write with bit 31 set while the core is
idle (R352). -/
abbrev State.ResetNext (s : State) : Prop :=
  s.env.head? = some .hardReset ∨
  (s.busy = false ∧ ∃ w : Word, w.getLsbD 31 = true ∧ s.env.head? = some (.bus ⟨.write, 0x004, .word, w⟩))

/-- What a faulting completion leaves: FAULT 1, FCODE the code, BUSY 0, all else as it was (R148, R312). -/
def State.faultedWith (s : State) (code : FaultCode) : State :=
  { s with fault := true, fcode := code, pending := none }

/-- What a completion without fault leaves besides the command's own destinations, `events` being the command's hook
sequence: OPCNT the count of the command, the events appended where HOOKEN was sampled 1, DONE 1, BUSY 0 (R147). -/
def State.completedWith (s : State) (i : Instr) (events : List HookEvent) : State :=
  { s with
    opcnt := BitVec.ofNat 32 (nops s.kbits i)
    hooks := s.hooks ++ (if s.hookSnapshot then events else [])
    done := true
    pending := none }

/-- The four events of a group operation: COMPOSE begins and ends, REDUCE begins and ends (R332). -/
def groupEvents : List HookEvent :=
  [⟨false, .compose⟩, ⟨true, .compose⟩, ⟨false, .reduce⟩, ⟨true, .reduce⟩]

/-- The events of one scalar multiplication of `n` iterations (R333). -/
def scalarEvents (n : Nat) : List HookEvent :=
  [⟨false, .smul⟩] ++
    (List.replicate n ([⟨false, .ladderIter⟩] ++ groupEvents ++ groupEvents ++ [⟨true, .ladderIter⟩])).flatten ++
    [⟨true, .smul⟩]

/-- A core with no command pending and not in the fault state: the only one that accepts a command (R140). -/
abbrev State.Ready (s : State) : Prop := s.busy = false ∧ s.fault = false

/-- The valid domain of R19 for the divisors `Ds`. -/
def State.InValidDomain (s : State) (Ds : List DivRegs) : Prop :=
  s.p.Prime ∧ nonsingular s.p s.params.f s.params.h = true ∧
    ∀ D ∈ Ds, strictOK s.p D = true ∧ member s.p s.params.f s.params.h D = true

/-- The coefficient list `a` stands for the polynomial `A` over Z/p (R13, R190). -/
def Represents (p : Nat) (a : Poly) (A : Polynomial (ZMod p)) : Prop :=
  ∀ i, A.coeff i = (coeff a i : ZMod p)

/-- Every coefficient is a canonical integer in [0, p) (R9, R190). -/
def Canonical (p : Nat) (a : Poly) : Prop := ∀ c ∈ a, c < p

/-- Cantor's composition in (Z/p)[x] (R260): D, monic, is a common divisor of U1, U2 and V1 + V2 + H with the cofactors
S1, S2, S3; U is U1·U2 / D^2; and V is (S1·U1·V2 + S2·U2·V1 + S3·(V1·V2 + F)) / D modulo U. -/
def IsComposition {p : Nat} (F H U1 V1 U2 V2 U V : Polynomial (ZMod p)) : Prop :=
  ∃ D S1 S2 S3 N : Polynomial (ZMod p),
    (D.Monic ∧ D ∣ U1 ∧ D ∣ U2 ∧ D ∣ V1 + V2 + H) ∧
    D = S1 * U1 + S2 * U2 + S3 * (V1 + V2 + H) ∧
    U * D ^ 2 = U1 * U2 ∧
    N * D = S1 * U1 * V2 + S2 * U2 * V1 + S3 * (V1 * V2 + F) ∧
    U ∣ N - V ∧ V.degree < U.degree

/-- Cantor's reduction step in (Z/p)[x] (R262): U' is (F - H·V - V^2) / U made monic, and V' is -H - V modulo U'. -/
def IsReduction {p : Nat} (F H U V U' V' : Polynomial (ZMod p)) : Prop :=
  U'.Monic ∧ (∃ c : ZMod p, c ≠ 0 ∧ Polynomial.C c * U' * U = F - H * V - V ^ 2) ∧
    U' ∣ -H - V - V' ∧ V'.degree < U'.degree

end Sys2Proof.Machine
end

