-- ==== Sys2Proof/Certificates/Slice0/Obligations.lean ====
section
/-! DEFINITION. The statements for the provers. In a statement about a command, a state named in a conclusion is the
whole next state: every field that it does not name is unchanged. The core has no memory (R80): the register window
is its only address space, and every register is a field of State. -/

open Sys2Proof Sys2Proof.Machine Sys2Proof.Machine.HostAsm

/-! ### Encoding -/

/-- Decoding the encoding of a command gives the command (30_encoding.md R110, R113). -/
def Obligations.DecodeOfEncode : Prop :=
  ∀ i : Instr, i.wellFormed = true → decode (encode i) = .ok i

/-- R115: a word with a nonzero bit in 31:8, or with bits 7:0 outside the map of R113, is illegal, and every other
word decodes to the command whose opcode its bits 7:0 are. -/
def Obligations.DecoderFollowsOpcodeMap : Prop :=
  ∀ cw : Word,
    ((cw.toNat / 256 ≠ 0 ∨ cw.toNat % 256 ∉ legalOpcodes) → ∃ e, decode cw = .error e) ∧
    ((cw.toNat / 256 = 0 ∧ cw.toNat % 256 ∈ legalOpcodes) →
      ∃ i, decode cw = .ok i ∧ (opcode i).toNat = cw.toNat % 256)

/-- A few command words, written out from the map of R113, and two illegal ones (R112, R114). -/
def Obligations.SampleWordsDecode : Prop :=
  decode 0x00000001 = .ok .init ∧ decode 0x00000012 = .ok .fmul ∧ decode 0x00000019 = .ok .movfb ∧
    decode 0x00000022 = .ok .dnorm ∧ decode 0x00000031 = .ok .ddbl ∧ decode 0x00000040 = .ok .dsmul ∧
    decode 0x00000000 = .error .unassignedOpcode ∧ decode 0x00000110 = .error .reservedBits

/-! ### The step -/

/-- A step takes what comes next. The sequencer's completion step runs the decoded command: with a well-formed word
pending and the sequencer to move (its turn in the environment's list, or the list empty: the model's scheduling, log
entry 4), a step is `exec` of the command, on the state with that turn taken off the list (R142); with no command
pending that turn does nothing. A bus transaction at the head of the list is performed on the state with it taken off
(R82, R93). -/
def Obligations.StepRunsPendingCommand : Prop :=
  (∀ (s : State) (c : Pending) (i : Instr), s.pending = some c → decode c.cw = .ok i → i.wellFormed = true →
    (s.env = [] → step s = exec i s) ∧
    (∀ es, s.env = .sequencer :: es → step s = exec i { s with env := es })) ∧
  (∀ s : State, s.pending = none →
    (s.env = [] → step s = .next s) ∧ (∀ es, s.env = .sequencer :: es → step s = .next { s with env := es })) ∧
  (∀ (s : State) (t : Txn) (es : List EnvEvent), s.env = .bus t :: es →
    step s = .next (busAccess t { s with env := es }))

/-- A pending word with CW[31:8] != 0 or with CW[7:0] not in the map faults ILLEGAL_CMD at its completion, before any
other check (R146), and writes nothing else (R148, R312). That the sequencer moves where the environment's list is empty
is the model's choice (log entry 4). -/
def Obligations.IllegalWordFaults : Prop :=
  ∀ (s : State) (c : Pending), s.pending = some c →
    (c.cw.toNat / 256 ≠ 0 ∨ c.cw.toNat % 256 ∉ legalOpcodes) →
    (s.env = [] → step s = .next (s.faultedWith .illegalCmd)) ∧
    (∀ es, s.env = .sequencer :: es → step s = .next (({ s with env := es } : State).faultedWith .illegalCmd))

/-- No step stops the machine: every step answers a next state (R28, R83, R310). -/
def Obligations.StepAlwaysAnswersNext : Prop :=
  ∀ s : State, ∃ t, step s = .next t

/-- A pending command is completed in the end, unless a hardware reset is to come (R149, R362): after some of the
environment's events, as many as its list has at most, the same record is still pending, nothing but the responses and,
by STATUS writes and dropped writes, DONE and OVR has changed, and the next step is the completion of the command, or
ILLEGAL_CMD for a word that is none. That the sequencer moves where the list is empty is the model's choice (log
entry 4). -/
def Obligations.PendingCommandCompletes : Prop :=
  ∀ (s : State) (c : Pending), s.pending = some c → .hardReset ∉ s.env →
    ∃ n ≤ s.env.length, ∃ (m t : State) (d o : Bool) (rs : List Response) (es : List EnvEvent),
      core.run n s = .next m ∧ m = { s with done := d, ovr := o, resps := s.resps ++ rs, env := m.env } ∧
      (m.env = es ∧ es = [] ∨ m.env = .sequencer :: es) ∧
      (∀ i, decode c.cw = .ok i → step m = exec i { m with env := es }) ∧
      (∀ e, decode c.cw = .error e → step m = .next (({ m with env := es } : State).faultedWith .illegalCmd)) ∧
      step m = .next t ∧ t.busy = false ∧ (t.done = true ∨ t.fault = true)

/-! ### INIT -/

/-- R143, R144: INIT faults REINIT with PRM = 1, faults BAD_PARAM where the parameter check fails, and otherwise sets
PRM and writes no operand register. -/
def Obligations.InitFollowsRule : Prop :=
  decode 0x00000001 = .ok .init ∧
  ∀ s : State,
    let p := s.params.p.toNat
    let legal := p % 2 = 1 ∧ 3 ≤ p ∧ s.params.f5.toNat = 1 ∧
      (s.params.f0.toNat < p ∧ s.params.f1.toNat < p ∧ s.params.f2.toNat < p ∧ s.params.f3.toNat < p ∧
        s.params.f4.toNat < p) ∧
      (s.params.h0.toNat < p ∧ s.params.h1.toNat < p ∧ s.params.h2.toNat < p)
    (s.prm = true → exec .init s = .next (s.faultedWith .reinit)) ∧
    (s.prm = false → ¬ legal → exec .init s = .next (s.faultedWith .badParam)) ∧
    (s.prm = false → legal → exec .init s = .next (({ s with prm := true } : State).completedWith .init []))

/-! ### The field unit -/

/-- R161: FADD. -/
def Obligations.FaddFollowsRule : Prop :=
  decode 0x00000010 = .ok .fadd ∧
  ∀ s : State,
    let a := s.fa.toNat
    let b := s.fb.toNat
    (s.prm = false → exec .fadd s = .next (s.faultedWith .noParams)) ∧
    (s.prm = true → s.p ≤ a ∨ s.p ≤ b → exec .fadd s = .next (s.faultedWith .range)) ∧
    (s.prm = true → a < s.p → b < s.p →
      exec .fadd s = .next (({ s with fr := BitVec.ofNat 128 (if a + b < s.p then a + b else a + b - s.p) } :
        State).completedWith .fadd []))

/-- R162: FSUB. -/
def Obligations.FsubFollowsRule : Prop :=
  decode 0x00000011 = .ok .fsub ∧
  ∀ s : State,
    let a := s.fa.toNat
    let b := s.fb.toNat
    (s.prm = false → exec .fsub s = .next (s.faultedWith .noParams)) ∧
    (s.prm = true → s.p ≤ a ∨ s.p ≤ b → exec .fsub s = .next (s.faultedWith .range)) ∧
    (s.prm = true → a < s.p → b < s.p →
      exec .fsub s = .next (({ s with fr := BitVec.ofNat 128 (if b ≤ a then a - b else a + s.p - b) } :
        State).completedWith .fsub []))

/-- The FMUL pseudocode, checks and result of R163: the exact product modulo p. -/
def Obligations.FmulFollowsRule : Prop :=
  decode 0x00000012 = .ok .fmul ∧
  ∀ s : State,
    let a := s.fa.toNat
    let b := s.fb.toNat
    (s.prm = false → exec .fmul s = .next (s.faultedWith .noParams)) ∧
    (s.prm = true → s.p ≤ a ∨ s.p ≤ b → exec .fmul s = .next (s.faultedWith .range)) ∧
    (s.prm = true → a < s.p → b < s.p →
      exec .fmul s = .next (({ s with fr := BitVec.ofNat 128 (a * b % s.p) } : State).completedWith .fmul []))

/-- R164: FNEG; FB is neither read nor checked. -/
def Obligations.FnegFollowsRule : Prop :=
  decode 0x00000013 = .ok .fneg ∧
  ∀ s : State,
    let a := s.fa.toNat
    (s.prm = false → exec .fneg s = .next (s.faultedWith .noParams)) ∧
    (s.prm = true → s.p ≤ a → exec .fneg s = .next (s.faultedWith .range)) ∧
    (s.prm = true → a < s.p →
      exec .fneg s = .next (({ s with fr := BitVec.ofNat 128 (if a = 0 then 0 else s.p - a) } :
        State).completedWith .fneg []))

/-- The FINV checks and result of R165: FR is a^(p-2) mod p, and for a prime p and a != 0 it is the inverse of a; FB is
neither read nor checked. -/
def Obligations.FinvFollowsRule : Prop :=
  decode 0x00000014 = .ok .finv ∧
  ∀ s : State,
    let a := s.fa.toNat
    (s.prm = false → exec .finv s = .next (s.faultedWith .noParams)) ∧
    (s.prm = true → s.p ≤ a → exec .finv s = .next (s.faultedWith .range)) ∧
    (s.prm = true → a < s.p →
      exec .finv s = .next (({ s with fr := BitVec.ofNat 128 (a ^ (s.p - 2) % s.p) } : State).completedWith .finv []) ∧
      (s.p.Prime → a ≠ 0 → a ^ (s.p - 2) % s.p * a % s.p = 1))

/-- The FSEL checks and result of R166: FB for SEL = 1 and FA for SEL = 0, both range-checked. -/
def Obligations.FselFollowsRule : Prop :=
  decode 0x00000015 = .ok .fsel ∧
  ∀ s : State,
    (s.prm = false → exec .fsel s = .next (s.faultedWith .noParams)) ∧
    (s.prm = true → s.p ≤ s.fa.toNat ∨ s.p ≤ s.fb.toNat → exec .fsel s = .next (s.faultedWith .range)) ∧
    (s.prm = true → s.fa.toNat < s.p → s.fb.toNat < s.p →
      exec .fsel s = .next (({ s with fr := if s.sel then s.fb else s.fa } : State).completedWith .fsel []))

/-- R167, R168: MOVFA and MOVFB copy FR as stored, with or without a parameter set. -/
def Obligations.FieldMovesFollowRules : Prop :=
  decode 0x00000018 = .ok .movfa ∧ decode 0x00000019 = .ok .movfb ∧
  ∀ s : State,
    exec .movfa s = .next (({ s with fa := s.fr } : State).completedWith .movfa []) ∧
    exec .movfb s = .next (({ s with fb := s.fr } : State).completedWith .movfb [])

/-- R12: the field functions, for any odd p of at least 3 that the P register can hold. -/
def Obligations.FieldFunctionsAreExact : Prop :=
  ∀ p : Nat, p % 2 = 1 → 3 ≤ p → p < 2 ^ 128 → ∀ a b : Nat, a < p → b < p →
    addp p a b = (a + b) % p ∧
    ((subp p a b : Nat) : Int) = ((a : Int) - (b : Int)) % (p : Int) ∧
    mulp p a b = (a * b) % p ∧
    negp p a = (p - a) % p ∧
    invp p a = a ^ (p - 2) % p ∧ invp p 0 = 0 ∧
    (p.Prime → a ≠ 0 → mulp p (invp p a) a = 1)

/-! ### The divisor unit -/

/-- R235: DID writes the identity divisor, with or without a parameter set. -/
def Obligations.DidFollowsRule : Prop :=
  decode 0x00000020 = .ok .did ∧
  ∀ s : State,
    let identity : DivRegs := ⟨1, 0, 0, 0, 0, 0x00000000, 0xFFFFFFFF⟩
    exec .did s = .next (({ s with r := identity } : State).completedWith .did [])

/-- The DCHK checks and result of R236: CHK is StrictOK and Member of A, and a bad divisor is no fault. -/
def Obligations.DchkFollowsRule : Prop :=
  decode 0x00000021 = .ok .dchk ∧
  ∀ s : State,
    (s.prm = false → exec .dchk s = .next (s.faultedWith .noParams)) ∧
    (s.prm = true → ∃ c : Bool,
      exec .dchk s = .next (({ s with chk := c } : State).completedWith .dchk []) ∧
      (c = true ↔ strictOK s.p s.a = true ∧ member s.p s.params.f s.params.h s.a = true))

/-- The DNORM checks and result of R237: for a prime p, u scaled by the inverse of its leading coefficient and v
reduced modulo it, written with exact degrees; for another p a draw, whatever the draw is. -/
def Obligations.DnormFollowsRule : Prop :=
  decode 0x00000022 = .ok .dnorm ∧
  ∀ s : State,
    let u' := pscale s.p (invp s.p (coeffAt s.a.u s.a.du)) s.a.u
    (s.prm = false → exec .dnorm s = .next (s.faultedWith .noParams)) ∧
    (s.prm = true → normOK s.p s.a = false → exec .dnorm s = .next (s.faultedWith .badDivisor)) ∧
    (s.prm = true → normOK s.p s.a = true → s.p.Prime →
      exec .dnorm s = .next (({ s with r := DivRegs.ofPair u' (pmod s.p s.a.v u') } :
        State).completedWith .dnorm [])) ∧
    (s.prm = true → normOK s.p s.a = true → ¬ s.p.Prime →
      exec .dnorm s = .next (({ s with r := DivRegs.draw s.draws, draws := s.draws + 1 } :
        State).completedWith .dnorm []))

/-- R238, R239: MOVRA and MOVRB copy all seven registers of R as stored, with or without a parameter set. -/
def Obligations.DivisorMovesFollowRules : Prop :=
  decode 0x00000028 = .ok .movra ∧ decode 0x00000029 = .ok .movrb ∧
  ∀ s : State,
    exec .movra s = .next (({ s with a := s.r } : State).completedWith .movra []) ∧
    exec .movrb s = .next (({ s with b := s.r } : State).completedWith .movrb [])

/-- R231: StrictOK, spelled out on the registers of a divisor set. -/
def Obligations.StrictOKMeansReducedForm : Prop :=
  ∀ (p : Nat) (D : DivRegs),
    let du := D.degu.toInt
    let dv := D.degv.toInt
    let u := [D.u0.toNat, D.u1.toNat, D.u2.toNat]
    let v := [D.v0.toNat, D.v1.toNat]
    strictOK p D = true ↔
      (du = 0 ∨ du = 1 ∨ du = 2) ∧
      ((dv = -1 ∨ dv = 0 ∨ dv = 1) ∧ dv < du) ∧
      ((∀ c ∈ u, c < p) ∧ (∀ c ∈ v, c < p)) ∧
      (∀ i : Nat, du < i → i ≤ 2 → u.getD i 0 = 0) ∧
      (∀ i : Nat, dv < i → i ≤ 1 → v.getD i 0 = 0) ∧
      u.getD du.toNat 0 = 1 ∧
      (dv = -1 ∨ v.getD dv.toNat 0 ≠ 0)

/-- R233: NormOK, spelled out on the registers of a divisor set. -/
def Obligations.NormOKMeansStructure : Prop :=
  ∀ (p : Nat) (D : DivRegs),
    let du := D.degu.toInt
    let dv := D.degv.toInt
    let u := [D.u0.toNat, D.u1.toNat, D.u2.toNat]
    let v := [D.v0.toNat, D.v1.toNat]
    normOK p D = true ↔
      ((du = 0 ∨ du = 1 ∨ du = 2) ∧ (dv = -1 ∨ dv = 0 ∨ dv = 1)) ∧
      ((∀ c ∈ u, c < p) ∧ (∀ c ∈ v, c < p)) ∧
      (∀ i : Nat, du < i → i ≤ 2 → u.getD i 0 = 0) ∧
      (∀ i : Nat, dv < i → i ≤ 1 → v.getD i 0 = 0) ∧
      u.getD du.toNat 0 ≠ 0

/-- Member of a StrictOK divisor is divisibility of v^2 + h·v - f by u in (Z/p)[x], for every odd p of at least 3,
prime or not (R232). -/
def Obligations.MemberMeansDivisibility : Prop :=
  ∀ (p : Nat) (f h : Poly) (D : DivRegs) (F H U V : Polynomial (ZMod p)),
    p % 2 = 1 → 3 ≤ p → p < 2 ^ 128 → strictOK p D = true → Canonical p f → Canonical p h →
    Represents p f F → Represents p h H → Represents p D.u U → Represents p D.v V →
    (member p f h D = true ↔ U ∣ V ^ 2 + H * V - F)

/-- What DNORM writes for a prime p is reduced: u' monic, deg v' < deg u', exact stored degrees (R237). -/
def Obligations.DnormResultIsStrictOK : Prop :=
  ∀ s t : State, s.prm = true → s.p.Prime → normOK s.p s.a = true → exec .dnorm s = .next t →
    strictOK s.p t.r = true

/-- DNORM leaves a reduced divisor as it is: an already monic u with deg v < deg u and exact degrees gives R = A, for a
prime p (R237). -/
def Obligations.DnormKeepsReducedDivisor : Prop :=
  ∀ s t : State, s.prm = true → s.p.Prime → strictOK s.p s.a = true → exec .dnorm s = .next t → t.r = s.a

/-! ### The polynomial unit -/

/-- R192, R193: the slot-wise functions and the product are those of (Z/p)[x], and their results are canonical. -/
def Obligations.PolynomialOpsRepresent : Prop :=
  ∀ (p : Nat) (a b : Poly) (A B : Polynomial (ZMod p)) (c : Nat), 0 < p → Canonical p a → Canonical p b →
    Represents p a A → Represents p b B →
    (Represents p (padd p a b) (A + B) ∧ Canonical p (padd p a b)) ∧
    (Represents p (psub p a b) (A - B) ∧ Canonical p (psub p a b)) ∧
    (Represents p (pneg p a) (-A) ∧ Canonical p (pneg p a)) ∧
    (Represents p (pscale p c a) (Polynomial.C (c : ZMod p) * A) ∧ Canonical p (pscale p c a)) ∧
    (Represents p (pmul p a b) (A * B) ∧ Canonical p (pmul p a b))

/-- Division with remainder for a prime p: a = q·b + r with deg r < deg b (R194). -/
def Obligations.DivisionWithRemainder : Prop :=
  ∀ (p : Nat) (a b : Poly) (A B : Polynomial (ZMod p)), p.Prime → p < 2 ^ 128 → Canonical p a → Canonical p b →
    Represents p a A → Represents p b B → B ≠ 0 →
    ∃ Q R : Polynomial (ZMod p), Represents p (pdiv p a b) Q ∧ Represents p (pmod p a b) R ∧
      Canonical p (pdiv p a b) ∧ Canonical p (pmod p a b) ∧ A = Q * B + R ∧ R.degree < B.degree

/-- The extended gcd for a prime p: a monic g that divides both polynomials, with g = s·a + t·b (R196). -/
def Obligations.ExtendedGcdIsGcd : Prop :=
  ∀ (p : Nat) (a b : Poly) (A B : Polynomial (ZMod p)), p.Prime → p < 2 ^ 128 → Canonical p a → Canonical p b →
    Represents p a A → Represents p b B → ¬ (A = 0 ∧ B = 0) →
    ∃ G S T : Polynomial (ZMod p), Represents p (xgcd p a b).1 G ∧ Represents p (xgcd p a b).2.1 S ∧
      Represents p (xgcd p a b).2.2 T ∧ G.Monic ∧ G ∣ A ∧ G ∣ B ∧ G = S * A + T * B

/-! ### Groups: Cantor and the scalar multiple -/

/-- The checks and the result of DADD (R265, R266): NO_PARAMS; BAD_DIVISOR; with CHKEN sampled 1, NOT_ON_CURVE; in the
valid domain the reference result with exact degrees; outside it a draw, whatever the draw is. -/
def Obligations.DaddFollowsRule : Prop :=
  decode 0x00000030 = .ok .dadd ∧
  ∀ s : State,
    let strict := strictOK s.p s.a = true ∧ strictOK s.p s.b = true
    let onCurve := member s.p s.params.f s.params.h s.a = true ∧ member s.p s.params.f s.params.h s.b = true
    let ref := cantorRef s.p s.params.f s.params.h (trim s.a.u, trim s.a.v) (trim s.b.u, trim s.b.v)
    (s.prm = false → exec .dadd s = .next (s.faultedWith .noParams)) ∧
    (s.prm = true → ¬ strict → exec .dadd s = .next (s.faultedWith .badDivisor)) ∧
    (s.prm = true → strict → s.chkSnapshot = true → ¬ onCurve →
      exec .dadd s = .next (s.faultedWith .notOnCurve)) ∧
    (s.prm = true → strict → s.InValidDomain [s.a, s.b] →
      exec .dadd s = .next (({ s with r := DivRegs.ofPair ref.1 ref.2 } : State).completedWith .dadd groupEvents)) ∧
    (s.prm = true → strict → (s.chkSnapshot = true → onCurve) → ¬ s.InValidDomain [s.a, s.b] →
      exec .dadd s = .next (({ s with r := DivRegs.draw s.draws, draws := s.draws + 1 } :
        State).completedWith .dadd groupEvents))

/-- The checks and the result of DDBL (R265, R267); B is neither read nor checked. -/
def Obligations.DdblFollowsRule : Prop :=
  decode 0x00000031 = .ok .ddbl ∧
  ∀ s : State,
    let strict := strictOK s.p s.a = true
    let onCurve := member s.p s.params.f s.params.h s.a = true
    let ref := cantorRef s.p s.params.f s.params.h (trim s.a.u, trim s.a.v) (trim s.a.u, trim s.a.v)
    (s.prm = false → exec .ddbl s = .next (s.faultedWith .noParams)) ∧
    (s.prm = true → ¬ strict → exec .ddbl s = .next (s.faultedWith .badDivisor)) ∧
    (s.prm = true → strict → s.chkSnapshot = true → ¬ onCurve →
      exec .ddbl s = .next (s.faultedWith .notOnCurve)) ∧
    (s.prm = true → strict → s.InValidDomain [s.a] →
      exec .ddbl s = .next (({ s with r := DivRegs.ofPair ref.1 ref.2 } : State).completedWith .ddbl groupEvents)) ∧
    (s.prm = true → strict → (s.chkSnapshot = true → onCurve) → ¬ s.InValidDomain [s.a] →
      exec .ddbl s = .next (({ s with r := DivRegs.draw s.draws, draws := s.draws + 1 } :
        State).completedWith .ddbl groupEvents))

/-- The checks and the result of DSMUL (R265, R291, R292); the scalar is not checked. -/
def Obligations.DsmulFollowsRule : Prop :=
  decode 0x00000040 = .ok .dsmul ∧
  ∀ s : State,
    let strict := strictOK s.p s.a = true
    let onCurve := member s.p s.params.f s.params.h s.a = true
    let ref := smulRef s.p s.params.f s.params.h s.kbits (s.k.toNat % 2 ^ s.kbits) (trim s.a.u, trim s.a.v)
    (s.prm = false → exec .dsmul s = .next (s.faultedWith .noParams)) ∧
    (s.prm = true → ¬ strict → exec .dsmul s = .next (s.faultedWith .badDivisor)) ∧
    (s.prm = true → strict → s.chkSnapshot = true → ¬ onCurve →
      exec .dsmul s = .next (s.faultedWith .notOnCurve)) ∧
    (s.prm = true → strict → s.InValidDomain [s.a] →
      exec .dsmul s = .next (({ s with r := DivRegs.ofPair ref.1 ref.2 } :
        State).completedWith .dsmul (scalarEvents s.kbits))) ∧
    (s.prm = true → strict → (s.chkSnapshot = true → onCurve) → ¬ s.InValidDomain [s.a] →
      exec .dsmul s = .next (({ s with r := DivRegs.draw s.draws, draws := s.draws + 1 } :
        State).completedWith .dsmul (scalarEvents s.kbits)))

/-- The reference result of a group operation on reduced divisors over a legal parameter set with a prime p: it is
reduced, on the curve or not (R264); for divisors on the curve it is on the curve (R271), it satisfies the relations of
Cantor's composition and, where the composed degree is above 2, of the one reduction step, in (Z/p)[x] (R260, R262,
R263), and the identity is neutral on either side (R270). The curve need not be nonsingular. -/
def Obligations.CantorResultIsStrictOK : Prop :=
  ∀ (c : CurveParams) (D1 D2 : DivRegs), paramOK c = true → c.p.toNat.Prime →
    strictOK c.p.toNat D1 = true → strictOK c.p.toNat D2 = true →
    let p := c.p.toNat
    let comp := compose p c.f c.h D1.pair D2.pair
    let ref := cantorRef p c.f c.h D1.pair D2.pair
    let result := DivRegs.ofPair ref.1 ref.2
    strictOK p result = true ∧
    (member p c.f c.h D1 = true → member p c.f c.h D2 = true →
      member p c.f c.h result = true ∧
      ∀ F H U1 V1 U2 V2 : Polynomial (ZMod p), Represents p c.f F → Represents p c.h H →
        Represents p D1.u U1 → Represents p D1.v V1 → Represents p D2.u U2 → Represents p D2.v V2 →
        ∃ U V : Polynomial (ZMod p), Represents p comp.1 U ∧ Represents p comp.2 V ∧
          IsComposition F H U1 V1 U2 V2 U V ∧
          (U.natDegree ≤ 2 → ref = comp) ∧
          (2 < U.natDegree → ∃ U' V' : Polynomial (ZMod p),
            Represents p ref.1 U' ∧ Represents p ref.2 V' ∧ IsReduction F H U V U' V')) ∧
    (member p c.f c.h D1 = true →
      cantorRef p c.f c.h ([1], []) D1.pair = D1.pair ∧ cantorRef p c.f c.h D1.pair ([1], []) = D1.pair)

/-- The scalar loop, for a legal parameter set with a prime p, any width and any reduced divisor: SMulRef goes over the
bits of k from bit n - 1 down to bit 0, each time doubling and taking the sum with D where the bit is 1 (R291); k = 0
gives the identity; and for a divisor on the curve k = 1 gives the divisor (R294). -/
def Obligations.ScalarZeroGivesIdentity : Prop :=
  ∀ (c : CurveParams) (D : DivRegs) (n : Nat), paramOK c = true → c.p.toNat.Prime → strictOK c.p.toNat D = true →
    let add := cantorRef c.p.toNat c.f c.h
    (∀ k : Nat, smulRef c.p.toNat c.f c.h n k D.pair =
      (List.range n).reverse.foldl
        (fun Q i => if k / 2 ^ i % 2 = 1 then add (add Q Q) D.pair else add Q Q) ([1], [])) ∧
    smulRef c.p.toNat c.f c.h n 0 D.pair = ([1], []) ∧
    (member c.p.toNat c.f c.h D = true → 1 ≤ n → smulRef c.p.toNat c.f c.h n 1 D.pair = D.pair)

/-! ### Acceptance and the register window -/

/-- R140: a CMD write of any word while BUSY = 0 and FAULT = 0 sets BUSY, clears DONE, sets LASTOP to CW[7:0] and
records the word with the CTRL bits; it changes nothing else. -/
def Obligations.CmdWriteAccepts : Prop :=
  ∀ (s : State) (cw : Word), s.Ready →
    memWrite 0x008 cw s = { s with
      done := false
      lastop := BitVec.ofNat 8 (cw.toNat % 256)
      pending := some { cw := cw, chken := s.chken, hooken := s.hooken } }

/-- R141: a CMD write while BUSY = 1 is dropped and sets OVR; while FAULT = 1 and BUSY = 0 it is ignored without
setting OVR. -/
def Obligations.CmdWriteTurnedAway : Prop :=
  ∀ (s : State) (cw : Word),
    (s.busy = true → memWrite 0x008 cw s = { s with ovr := true }) ∧
    (s.busy = false → s.fault = true → memWrite 0x008 cw s = s)

/-- While BUSY = 1, every aligned word write to an offset other than STATUS changes nothing but OVR, which it sets
(R87), and answers OKAY (R85); that the response carries no data is log entry 10. -/
def Obligations.WriteWhileBusyIsDropped : Prop :=
  ∀ (s : State) (off : Offset) (w : Word), s.busy = true → off.toNat % 4 = 0 → off ≠ 0x00C →
    busAccess ⟨.write, off, .word, w⟩ s = { s with ovr := true, resps := s.resps ++ [⟨.okay, none⟩] }

/-- R86: while BUSY = 1, reads of the FR words and of the R set return 0; when BUSY = 0 they return their stored
content. -/
def Obligations.ResultsHiddenWhileBusy : Prop :=
  ∀ (s : State) (w : Fin 4) (c : Coef) (d : Degree),
    (s.busy = true → memRead (offsetOf (.fr w)) s = 0 ∧ memRead (offsetOf (.coef .r c w)) s = 0 ∧
      memRead (offsetOf (.degree .r d)) s = 0) ∧
    (s.busy = false → memRead (offsetOf (.fr w)) s = s.fr.extractLsb' (32 * w.val) 32 ∧
      memRead (offsetOf (.coef .r c w)) s = (s.r.getCoef c).extractLsb' (32 * w.val) 32 ∧
      memRead (offsetOf (.degree .r d)) s = s.r.getDegree d)

/-- R46: reads of the K words return 0 regardless of content; and no read of any offset depends on K. -/
def Obligations.ScalarIsNeverRead : Prop :=
  (∀ (s : State) (off : Offset), 0x500 ≤ off.toNat → off.toNat ≤ 0x51C → memRead off s = 0) ∧
  (∀ (s : State) (k : ScalarWord) (off : Offset), memRead off { s with k := k } = memRead off s)

/-- What a bus transaction does and answers. One of another size than 4, or with an offset that is no multiple of 4,
answers ERR with rdata 0 and changes no state (R83). An aligned word read answers OKAY with MemRead's value and changes
no state (R84, R91); an aligned word write performs MemWrite and answers OKAY (R85). The data of a write's response is
left open (log entry 10). -/
def Obligations.BadShapeAndReadsChangeNothing : Prop :=
  (∀ (s : State) (t : Txn), t.size ≠ .word ∨ t.off.toNat % 4 ≠ 0 →
    busAccess t s = { s with resps := s.resps ++ [⟨.err, some 0⟩] }) ∧
  (∀ (s : State) (t : Txn), t.size = .word → t.off.toNat % 4 = 0 → t.rw = .read →
    busAccess t s = { s with resps := s.resps ++ [⟨.okay, some (memRead t.off s)⟩] }) ∧
  (∀ (s : State) (t : Txn), t.size = .word → t.off.toNat % 4 = 0 → t.rw = .write →
    ∃ d, busAccess t s = { memWrite t.off t.wdata s with resps := s.resps ++ [⟨.okay, d⟩] })

/-- The address map: every register word stands at its offset of R57 and R42, and no other word offset is a register
(R81, R90): it reads as zero and, while the core is idle, ignores writes. What the registers read as (R84): the
constants ID and KBITS, OPCNT, the select bit of FC, CMD as 0, and the words of the parameter, field operand and divisor
operand registers. -/
def Obligations.AddressMapIsComplete : Prop :=
  (∀ g : RegWord, locate (offsetOf g) = some g) ∧
  (∀ (off : Offset) (g : RegWord), off.toNat % 4 = 0 → locate off = some g → off = offsetOf g) ∧
  (∀ (s : State) (off : Offset) (w : Word), locate off = none →
    memRead off s = 0 ∧ (s.busy = false → memWrite off w s = s)) ∧
  (∀ s : State, memRead 0x000 s = 0x48424432 ∧ memRead 0x008 s = 0 ∧ memRead 0x010 s = s.opcnt ∧
    (memRead 0x014 s).toNat = s.kbits ∧ memRead 0x130 s = (if s.sel then 1 else 0)) ∧
  (∀ (s : State) (i : Fin 4),
    (∀ q, memRead (offsetOf (.param q i)) s = (s.params.get q).extractLsb' (32 * i.val) 32) ∧
    memRead (offsetOf (.fa i)) s = s.fa.extractLsb' (32 * i.val) 32 ∧
    memRead (offsetOf (.fb i)) s = s.fb.extractLsb' (32 * i.val) 32 ∧
    (∀ c, memRead (offsetOf (.coef .a c i)) s = (s.a.getCoef c).extractLsb' (32 * i.val) 32 ∧
      memRead (offsetOf (.coef .b c i)) s = (s.b.getCoef c).extractLsb' (32 * i.val) 32) ∧
    (∀ d, memRead (offsetOf (.degree .a d)) s = s.a.getDegree d ∧
      memRead (offsetOf (.degree .b d)) s = s.b.getDegree d))

/-- While the core is idle, a word of a writable operand register reads back as it was written, and the write changes
the reading of no other offset (R84, R85, R93); a staging register is writable while PRM = 0. -/
def Obligations.ReadAfterWrite : Prop :=
  ∀ (s : State) (g : RegWord) (w : Word), s.busy = false →
    ((∃ q i, g = .param q i ∧ s.prm = false) ∨ (∃ i, g = .fa i ∨ g = .fb i) ∨
      (∃ S c i, g = .coef S c i ∧ S ≠ .r) ∨ (∃ S d, g = .degree S d ∧ S ≠ .r)) →
    memRead (offsetOf g) (memWrite (offsetOf g) w s) = w ∧
    ∀ off : Offset, off.toNat % 4 = 0 → off ≠ offsetOf g →
      memRead off (memWrite (offsetOf g) w s) = memRead off s

/-- R88, for every 128-bit register that the host may write (FA, FB, the staging registers while PRM = 0, the
coefficients of A and B) of an idle core: four word writes at b, b+4, b+8 and b+0xC make the register whose word i holds
bits 32i+31 to 32i, nothing else changing. And the values that `rdf` and `rdd` bind (R122) are the registers' values. -/
def Obligations.FourWordsMakeRegister : Prop :=
  ∀ (s : State) (w0 w1 w2 w3 : Word), s.busy = false →
    let write := fun (g : Fin 4 → RegWord) =>
      memWrite (offsetOf (g 3)) w3 (memWrite (offsetOf (g 2)) w2 (memWrite (offsetOf (g 1)) w1
        (memWrite (offsetOf (g 0)) w0 s)))
    let v := BitVec.ofNat 128 (w0.toNat + w1.toNat * 2 ^ 32 + w2.toNat * 2 ^ 64 + w3.toNat * 2 ^ 96)
    write .fa = { s with fa := v } ∧ write .fb = { s with fb := v } ∧
    (∀ q, s.prm = false → write (.param q) = { s with params := s.params.set q v }) ∧
    (∀ c, write (.coef .a c) = { s with a := s.a.setCoef c v } ∧
      write (.coef .b c) = { s with b := s.b.setCoef c v }) ∧
    rdfValue (answers (rdf .fr) s) = s.fr.toNat ∧ rdfValue (answers (rdf .fa) s) = s.fa.toNat ∧
    rdfValue (answers (rdf .fb) s) = s.fb.toNat ∧
    (∀ q, rdfValue (answers (rdf (.param q)) s) = (s.params.get q).toNat) ∧ rddValue (answers rdd s) = s.r

/-- R45: a write of K word i stores bit j of the data into scalar bit 32i+j only if 32i+j < KBITS, and changes nothing
else. -/
def Obligations.ScalarWriteStoresImplementedBits : Prop :=
  ∀ (s : State) (i : Fin 8) (w : Word), s.busy = false →
    ∃ k : ScalarWord, memWrite (offsetOf (.k i)) w s = { s with k := k } ∧
      ∀ n : Nat, k.getLsbD n = if n / 32 = i.val ∧ n < s.kbits then w.getLsbD (n % 32) else s.k.getLsbD n

/-- Writes of an idle core. R38: while PRM = 0 a word write to a staging register stores the data in that word, and while
PRM = 1 it is ignored; R41: FC stores bit 0 only; and ID, OPCNT, KBITS, FR and every word of the R set are read-only to
the host (R31, R35, R36, R41, R44). -/
def Obligations.StagingAndFieldRegisterWrites : Prop :=
  ∀ (s : State) (w : Word), s.busy = false →
    (∀ (q : ParamReg) (i : Fin 4), s.prm = false → ∃ c, memWrite (offsetOf (.param q i)) w s = { s with params := c } ∧
      (∀ j, getWord (c.get q) j = if j = i then w else getWord (s.params.get q) j) ∧
      (∀ q', q' ≠ q → c.get q' = s.params.get q')) ∧
    (∀ (q : ParamReg) (i : Fin 4), s.prm = true → memWrite (offsetOf (.param q i)) w s = s) ∧
    memWrite (offsetOf .fc) w s = { s with sel := w.getLsbD 0 } ∧
    (memWrite (offsetOf .id) w s = s ∧ memWrite (offsetOf .opcnt) w s = s ∧ memWrite (offsetOf .kbits) w s = s) ∧
    (∀ i : Fin 4, memWrite (offsetOf (.fr i)) w s = s ∧ ∀ c, memWrite (offsetOf (.coef .r c i)) w s = s) ∧
    (∀ d, memWrite (offsetOf (.degree .r d)) w s = s)

/-- R34: the layout of STATUS, and a STATUS write, which clears DONE and OVR by ones in bits 1 and 3, also while
BUSY; R311: the numbers of the fault codes, as FCODE reports them. -/
def Obligations.StatusLayoutAndWrite : Prop :=
  (∀ (s : State) (w : Word),
    let r := memRead 0x00C s
    (r.getLsbD 0 = s.busy ∧ r.getLsbD 1 = s.done ∧ r.getLsbD 2 = s.fault ∧ r.getLsbD 3 = s.ovr ∧
      r.getLsbD 4 = s.prm ∧ r.getLsbD 5 = s.chk ∧ r.extractLsb' 6 2 = 0 ∧ r.extractLsb' 8 8 = s.fcode.code ∧
      r.extractLsb' 16 8 = s.lastop ∧ r.extractLsb' 24 8 = 0) ∧
    memWrite 0x00C w s =
      { s with
        done := if w.getLsbD 1 then false else s.done
        ovr := if w.getLsbD 3 then false else s.ovr }) ∧
  (FaultCode.code .none = 0x00 ∧ FaultCode.code .illegalCmd = 0x01 ∧ FaultCode.code .noParams = 0x02 ∧
    FaultCode.code .reinit = 0x03 ∧ FaultCode.code .badParam = 0x04 ∧ FaultCode.code .range = 0x05 ∧
    FaultCode.code .badDivisor = 0x06 ∧ FaultCode.code .notOnCurve = 0x07)

/-- R32: a CTRL write to an idle core with bit 31 clear stores bits 2:0, which CTRL then reads as, its other bits
reading 0. -/
def Obligations.CtrlWriteStoresThreeBits : Prop :=
  ∀ (s : State) (w : Word), s.busy = false → w.getLsbD 31 = false →
    memWrite 0x004 w s = { s with chken := w.getLsbD 0, hooken := w.getLsbD 1, ie := w.getLsbD 2 } ∧
    memRead 0x004 (memWrite 0x004 w s) = w &&& 7

/-! ### Reset -/

/-- R57, R351, R354: the machine after reset, as the window shows it. -/
def Obligations.ResetLeavesZeroes : Prop :=
  memRead 0x000 State.reset = 0x48424432 ∧
  (∀ off : Offset, 0x004 ≤ off.toNat → off.toNat ≠ 0x014 → memRead off State.reset = 0) ∧
  State.reset.k = 0 ∧ State.reset.busy = false ∧ State.reset.irq = false ∧ State.reset.hooks = []

/-- R351, R352: a CTRL write with bit 31 set to an idle core, in the fault state or not and whatever the other bits,
puts every register at its reset value; KBITS is a constant and the hook trace is not cleared. While BUSY the write is
dropped and sets OVR. -/
def Obligations.SoftResetClearsCore : Prop :=
  ∀ (s : State) (w : Word), w.getLsbD 31 = true →
    (s.busy = false → memWrite 0x004 w s =
      { State.reset with kbitsM1 := s.kbitsM1, hooks := s.hooks, env := s.env, resps := s.resps, draws := s.draws }) ∧
    (s.busy = true → memWrite 0x004 w s = { s with ovr := true })

/-- R351, R353: the hardware reset puts every register at its reset value, abandons a pending command without a
result, and leaves the hook trace with a prefix of that command's sequence appended: none of it where HOOKEN was
sampled 0. -/
def Obligations.HardResetAbandonsCommand : Prop :=
  ∀ (s : State) (es : List EnvEvent), s.env = .hardReset :: es →
    ∃ (ev : List HookEvent) (d : Nat), step s = .next
      { State.reset with
        kbitsM1 := s.kbitsM1, hooks := s.hooks ++ ev, env := es, resps := s.resps, draws := d } ∧
      (s.pending = none → ev = []) ∧
      (∀ c, s.pending = some c → (c.hooken = false → ev = []) ∧
        ∀ i, decode c.cw = .ok i → ev <+: hookSeq s.kbits i)

/-! ### Whole-machine rules -/

/-- The invariant of the core holds after reset (R57). -/
def Obligations.InvariantHoldsAtReset : Prop := State.reset.Inv

/-- Every step keeps the invariant of the core: FCODE is 0 exactly without FAULT, the fault state is idle with DONE 0,
a pending record agrees with CTRL and LASTOP, the parameter set stays a checked one, FR stays a field element and
unimplemented bits of K stay 0 (R34, R39, R45, R53, R148, R150, R169, R318). -/
def Obligations.StepKeepsInvariant : Prop :=
  ∀ s t : State, s.Inv → step s = .next t → t.Inv

/-- R147, R148: every completion either faults, writing FAULT, FCODE and BUSY only, or leaves FAULT, FCODE, OVR, CTRL,
LASTOP, the staging registers, K and every register that R113 does not list for the command unchanged. -/
def Obligations.CompletionWritesOnlyListed : Prop :=
  ∀ (i : Instr) (s t : State), exec i s = .next t →
    (∃ code, code ≠ .none ∧ t = s.faultedWith code) ∨
    (t.done = true ∧ t.busy = false ∧ t.opcnt = BitVec.ofNat 32 (nops s.kbits i) ∧
      t.hooks = s.hooks ++ (if s.hookSnapshot then hookSeq s.kbits i else []) ∧
      t.kbits = s.kbits ∧ t.chken = s.chken ∧ t.hooken = s.hooken ∧ t.ie = s.ie ∧ t.fault = s.fault ∧
      t.fcode = s.fcode ∧ t.ovr = s.ovr ∧ t.lastop = s.lastop ∧ t.params = s.params ∧ t.sel = s.sel ∧ t.k = s.k ∧
      t.env = s.env ∧ t.resps = s.resps ∧
      (i ≠ .init → t.prm = s.prm) ∧ (i ≠ .dchk → t.chk = s.chk) ∧
      (i ∉ [.fadd, .fsub, .fmul, .fneg, .finv, .fsel] → t.fr = s.fr) ∧
      (i ≠ .movfa → t.fa = s.fa) ∧ (i ≠ .movfb → t.fb = s.fb) ∧
      (i ≠ .movra → t.a = s.a) ∧ (i ≠ .movrb → t.b = s.b) ∧
      (i ∉ [.did, .dnorm, .dadd, .ddbl, .dsmul] → t.r = s.r))

/-- The reading that the spec derives in R27 from R21 to R26: for a command that does not fault, its latency, the OPCNT
value it leaves and the hook events it emits are functions of the opcode, KBITS and the HOOKEN snapshot only, in the
valid domain or outside it; and DADD and DDBL cannot be told apart by them. The latencies are constants that no step
reads (log entry 7). -/
def Obligations.CountsAndHooksAreConstant : Prop :=
  ∀ (i j : Instr) (s1 t1 s2 t2 : State),
    (i = j ∨ (i = .dadd ∧ j = .ddbl)) → s1.kbits = s2.kbits → s1.hookSnapshot = s2.hookSnapshot →
    s1.fault = false → s2.fault = false →
    exec i s1 = .next t1 → exec j s2 = .next t2 → t1.fault = false → t2.fault = false →
    latency s1.kbits i = latency s2.kbits j ∧ t1.opcnt = t2.opcnt ∧
      ∃ ev, t1.hooks = s1.hooks ++ ev ∧ t2.hooks = s2.hooks ++ ev

/-- The constraints on NOPS (R328; that of DSMUL the spec derives from R27 and R293); the table behind them is log
entry 2. -/
def Obligations.OperationCountLaws : Prop :=
  ∀ kbits : Nat, 1 ≤ kbits → kbits ≤ 256 →
    (∀ i : Instr, 1 ≤ nops kbits i ∧ nops kbits i < 2 ^ 32) ∧
    nops kbits .dadd = nops kbits .ddbl ∧
    ∃ nsel nsm0 : Nat, 1 ≤ nsel ∧ nops kbits .dsmul = kbits * (2 * nops kbits .dadd + nsel) + nsm0

/-- R333: the hook sequences, and their lengths: DSMUL emits 10·KBITS + 2 events. And what the hook port shows of an
event: hook_end 0 for a phase-begin and 1 for a phase-end, and the hook_id of R330. -/
def Obligations.HookSequences : Prop :=
  (∀ kbits : Nat,
    hookSeq kbits .dadd = groupEvents ∧ hookSeq kbits .ddbl = groupEvents ∧
    hookSeq kbits .dsmul = scalarEvents kbits ∧ (hookSeq kbits .dsmul).length = 10 * kbits + 2 ∧
    ∀ i : Instr, i ∉ [.dadd, .ddbl, .dsmul] → hookSeq kbits i = []) ∧
  (∀ e : Bool, HookEvent.port ⟨e, .compose⟩ = (e, 0x01) ∧ HookEvent.port ⟨e, .reduce⟩ = (e, 0x02) ∧
    HookEvent.port ⟨e, .ladderIter⟩ = (e, 0x03) ∧ HookEvent.port ⟨e, .smul⟩ = (e, 0x04))

/-- R58, R319: irq is CTRL.IE and (DONE or FAULT), so that it is 1 after every completion with IE = 1, and a STATUS
write that clears DONE removes it unless the core is in the fault state. -/
def Obligations.InterruptAfterCompletion : Prop :=
  (∀ s : State, s.irq = true ↔ s.ie = true ∧ (s.done = true ∨ s.fault = true)) ∧
  (∀ (i : Instr) (s t : State), exec i s = .next t → t.irq = s.ie) ∧
  (∀ (s : State) (w : Word), w.getLsbD 1 = true → (memWrite 0x00C w s).irq = (s.ie && s.fault))

/-- The fault state is left by reset only: every other step keeps FAULT, and keeps FCODE and accepts no command while
the core is idle, which it is in the fault state (R315, R317, R318). -/
def Obligations.FaultStateIsSticky : Prop :=
  ∀ s t : State, s.fault = true → s.busy = false → step s = .next t → ¬ s.ResetNext →
    t.fault = true ∧ t.fcode = s.fcode ∧ t.busy = false ∧ t.lastop = s.lastop ∧ t.r = s.r

/-- The parameter set is immutable: while PRM = 1 every step that is no reset keeps PRM and the staging registers
(R38, R51, R359), and no step but a successful INIT sets PRM (R51). -/
def Obligations.ParametersAreImmutable : Prop :=
  (∀ s t : State, s.prm = true → step s = .next t → ¬ s.ResetNext → t.prm = true ∧ t.params = s.params) ∧
  (∀ s t : State, s.prm = false → step s = .next t → t.prm = true →
    ∃ c, s.pending = some c ∧ decode c.cw = .ok .init ∧ paramOK s.params = true ∧ t.params = s.params)

/-- R44: the R set is changed by the completion of DID, DNORM, DADD, DDBL or DSMUL, or by reset, and by nothing
else. -/
def Obligations.ResultSetChangedOnlyByItsCommands : Prop :=
  ∀ s t : State, step s = .next t → t.r ≠ s.r → ¬ s.ResetNext →
    ∃ c i, s.pending = some c ∧ decode c.cw = .ok i ∧ i ∈ [.did, .dnorm, .dadd, .ddbl, .dsmul] ∧ t.busy = false

/-- KBITS is a constant of the machine: no step changes it (R30, R35). -/
def Obligations.KbitsIsConstant : Prop :=
  ∀ s t : State, step s = .next t → t.kbits = s.kbits ∧ 1 ≤ t.kbits ∧ t.kbits ≤ 256
end

