-- ==== Sys2Proof/Laws/Arith.lean ====
section
/-! SUPPORT. The field functions as exact integer functions, and `primeP` as primality. -/

namespace Sys2Proof.Machine

theorem addp_lt {p : Nat} (hp : 0 < p) (a b : Nat) : addp p a b < p := Nat.mod_lt _ hp

theorem mulp_lt {p : Nat} (hp : 0 < p) (a b : Nat) : mulp p a b < p := Nat.mod_lt _ hp

theorem subp_lt {p : Nat} (hp : 0 < p) (a b : Nat) : subp p a b < p := by
  have h := Int.emod_lt_of_pos ((a : Int) - b) (Int.natCast_pos.mpr hp)
  have h0 := Int.emod_nonneg ((a : Int) - b) (Int.natCast_ne_zero.mpr hp.ne')
  unfold subp
  omega

theorem negp_lt {p : Nat} (hp : 0 < p) (a : Nat) : negp p a < p := subp_lt hp p a

/-- The loop of `powp` keeps `acc * base ^ e mod p`. -/
theorem powLoop_eq (p : Nat) : ∀ (n base e acc : Nat), e < 2 ^ n → powLoop p n base e acc = acc * base ^ e % p
  | 0, base, e, acc, h => by
    obtain rfl : e = 0 := by simpa using h
    simp [powLoop]
  | n + 1, base, e, acc, h => by
    have hh : e / 2 < 2 ^ n := by rw [pow_succ] at h; omega
    have hpow : base ^ e = (base * base) ^ (e / 2) * base ^ (e % 2) := by
      rw [← pow_two, ← pow_mul, ← pow_add, Nat.div_add_mod]
    rw [powLoop, powLoop_eq p n _ _ _ hh, hpow]
    rcases Nat.mod_two_eq_zero_or_one e with he | he
    · simp [he, Nat.mul_mod, Nat.pow_mod]
    · simp only [he, if_true, pow_one]
      rw [show acc * ((base * base) ^ (e / 2) * base) = acc * base * (base * base) ^ (e / 2) by ring]
      exact ((Nat.mod_modEq _ _).mul ((Nat.mod_modEq _ _).pow _))

/-- `powp` is the power modulo p, for exponents of 128 bits. -/
theorem powp_eq (p a e : Nat) (h : e < 2 ^ 128) : powp p a e = a ^ e % p := by
  rw [powp, powLoop_eq p 128 _ _ _ h, one_mul, ← Nat.pow_mod]

/-- `invp(a) = a ^ (p - 2) mod p` (R12). -/
theorem invp_eq (p a : Nat) (h : p < 2 ^ 128) : invp p a = a ^ (p - 2) % p := powp_eq p a _ (by omega)

/-- Trial division finds every divisor between its start and the square root. -/
theorem noDivisorFrom_eq_true_iff (p : Nat) : ∀ (fuel d : Nat), p < d + fuel → 1 ≤ d →
    (noDivisorFrom p fuel d = true ↔ ∀ m, d ≤ m → m * m ≤ p → ¬ m ∣ p)
  | 0, d, hf, hd => by
    simp only [noDivisorFrom, true_iff]
    intro m hm hmm
    nlinarith
  | n + 1, d, hf, hd => by
    rw [noDivisorFrom]
    split
    · simp only [true_iff]
      intro m hm hmm
      nlinarith
    · split
      · simp only [Bool.false_eq_true, false_iff, not_forall, not_not]
        exact ⟨d, le_rfl, by omega, Nat.dvd_of_mod_eq_zero ‹_›⟩
      · rw [noDivisorFrom_eq_true_iff p n (d + 1) (by omega) (by omega)]
        constructor
        · intro h m hm hmm
          rcases Nat.lt_or_ge d m with hlt | hge
          · exact h m hlt hmm
          · obtain rfl : m = d := by omega
            exact fun hdvd => ‹¬ p % m = 0› (Nat.mod_eq_zero_of_dvd hdvd)
        · exact fun h m hm hmm => h m (by omega) hmm

/-- Trial division decides primality. -/
theorem trialPrime_iff (p : Nat) : trialPrime p = true ↔ p.Prime := by
  rw [trialPrime, Bool.and_eq_true, decide_eq_true_iff, noDivisorFrom_eq_true_iff p p 2 (by omega) (by omega),
    Nat.prime_def_le_sqrt]
  simp only [Nat.le_sqrt]

/-- The sequence is Mathlib's Lucas-Lehmer sequence. -/
theorem lucasLehmerSeq_eq (q k : Nat) : lucasLehmerSeq q k = LucasLehmer.norm_num_ext.sModNat q k := by
  induction k with
  | zero => rfl
  | succ k ih => rw [lucasLehmerSeq, LucasLehmer.norm_num_ext.sModNat, ih, pow_two]

/-- A modulus that passes the Lucas-Lehmer test is prime. -/
theorem prime_of_mersennePrime {p : Nat} (h : mersennePrime p = true) : p.Prime := by
  simp only [mersennePrime, Bool.and_eq_true, decide_eq_true_iff] at h
  obtain ⟨⟨hp, hn⟩, hs⟩ := h
  generalize Nat.log2 (p + 1) = n at hp hn hs
  obtain rfl : p = mersenne n := by
    have := succ_mersenne n
    omega
  refine lucas_lehmer_sufficiency n (by omega) ?_
  rw [LucasLehmer.LucasLehmerTest, LucasLehmer.residue_eq_zero_iff_sMod_eq_zero n (by omega),
    ← LucasLehmer.norm_num_ext.sModNat_eq_sMod n (n - 2) (by omega), ← lucasLehmerSeq_eq]
  exact_mod_cast hs

/-- `primeP` decides primality (R19). -/
theorem primeP_iff (p : Nat) : primeP p = true ↔ p.Prime := by
  rw [primeP, Bool.or_eq_true, trialPrime_iff]
  exact ⟨fun h => h.elim prime_of_mersennePrime id, Or.inr⟩

end Sys2Proof.Machine
end

