-- ==== Sys2Proof/Laws/Cantor.lean ====
section
/-! SUPPORT. The equations of the group functions, and Cantor's composition and reduction as algebra over Z/p: what
keeps a divisor on the curve, and that the identity is neutral. -/

namespace Sys2Proof.Machine

open Polynomial

/-- CantorRef is the composition, reduced once where its degree is above 2 (R263, R264). -/
theorem cantorRef_eq (p : Nat) (f h : Poly) (D1 D2 : Mumford) :
    cantorRef p f h D1 D2 =
      if 2 < deg (compose p f h D1 D2).1 then reduceStep p f h (compose p f h D1 D2) else compose p f h D1 D2 := rfl

/-- One iteration of the scalar loop (R291). -/
theorem smulLoop_succ (p : Nat) (f h : Poly) (k : Nat) (D : Mumford) (n : Nat) (q : Mumford) :
    smulLoop p f h k D (n + 1) q =
      smulLoop p f h k D n
        (if k.testBit n then cantorRef p f h (cantorRef p f h q q) D else cantorRef p f h q q) := rfl

/-- The composition, by the parts of its two extended gcds `x` and `y` (R260). -/
theorem compose_eq (p : Nat) (f h u1 v1 u2 v2 : Poly) :
    ∃ x y, x = xgcd p u1 u2 ∧ y = xgcd p x.1 (padd p (padd p v1 v2) h) ∧
      compose p f h (u1, v1) (u2, v2) =
        (pdiv p (pmul p u1 u2) (pmul p y.1 y.1),
          pmod p
            (pdiv p
              (padd p
                (padd p (pmul p (pmul p (pmul p y.2.1 x.2.1) u1) v2) (pmul p (pmul p (pmul p y.2.1 x.2.2) u2) v1))
                (pmul p y.2.2 (padd p (pmul p v1 v2) f)))
              y.1)
            (pdiv p (pmul p u1 u2) (pmul p y.1 y.1))) :=
  ⟨_, _, rfl, rfl, rfl⟩

variable {p : Nat} [Fact p.Prime] {F H U1 V1 U2 V2 U V U' V' : (ZMod p)[X]}

/-- Two remainders modulo U whose difference U divides are equal. -/
theorem eq_of_dvd_sub (h : U ∣ V - V') (hV : V.degree < U.degree) (hV' : V'.degree < U.degree) : V = V' :=
  sub_eq_zero.1 (eq_zero_of_dvd_of_degree_lt h ((degree_sub_le _ _).trans_lt (max_lt hV hV')))

/-- The composition of divisors on the curve is on the curve (R271). -/
theorem IsComposition.dvd (h : IsComposition F H U1 V1 U2 V2 U V) (h1 : U1 ∣ V1 ^ 2 + H * V1 - F)
    (h2 : U2 ∣ V2 ^ 2 + H * V2 - F) : U ∣ V ^ 2 + H * V - F := by
  obtain ⟨D, S1, S2, S3, N, ⟨hD, -, -, -⟩, e1, e2, e3, ⟨q, hq⟩, -⟩ := h
  obtain ⟨W1, w1⟩ := h1
  obtain ⟨W2, w2⟩ := h2
  have hF : F = V1 ^ 2 + H * V1 - U1 * W1 := by rw [← w1]; ring
  have hW : V2 ^ 2 + H * V2 - U2 * W2 = V1 ^ 2 + H * V1 - U1 * W1 := by rw [← w1, ← w2]; ring
  have key : U ∣ N ^ 2 + H * N - F := by
    apply (mul_dvd_mul_iff_right (pow_ne_zero 2 hD.ne_zero)).1
    rw [e2]
    refine ⟨(S1 * (V2 - V1) - S3 * W1) * (S2 * (V1 - V2) - S3 * W2) + D * (S1 * W2 + S2 * W1), ?_⟩
    have a1 : N * D - V1 * D = U1 * (S1 * (V2 - V1) - S3 * W1) := by rw [e3, e1, hF]; ring
    have a2 : N * D - V2 * D = U2 * (S2 * (V1 - V2) - S3 * W2) := by rw [e3, e1, hF, ← hW]; ring
    have a3 : (S1 * (V2 - V1) - S3 * W1) * (V1 + V2 + H) + D * W1 = U2 * (S1 * W2 + S2 * W1) := by
      rw [e1]
      linear_combination S1 * hW
    have a4 : (N ^ 2 + H * N - F) * D ^ 2 =
        (N * D - V1 * D) * ((N * D - V2 * D) + (V1 + V2 + H) * D) + D ^ 2 * (U1 * W1) := by rw [hF]; ring
    rw [a4, a1, a2]
    linear_combination U1 * D * a3
  have hV : V = N - U * q := by rw [← hq]; ring
  have e : V ^ 2 + H * V - F = (N ^ 2 + H * N - F) + U * (-2 * N * q + U * q ^ 2 - H * q) := by rw [hV]; ring
  rw [e]
  exact dvd_add key (dvd_mul_right _ _)

/-- The reduction step stays on the curve (R271). -/
theorem IsReduction.dvd (h : IsReduction F H U V U' V') : U' ∣ V' ^ 2 + H * V' - F := by
  obtain ⟨-, ⟨c, -, hc⟩, ⟨q, hq⟩, -⟩ := h
  have hV : V' = -H - V - U' * q := by rw [← hq]; ring
  refine ⟨-C c * U + (2 * H * q + 2 * V * q + U' * q ^ 2 - H * q), ?_⟩
  rw [hV]
  linear_combination hc

/-- The identity is neutral for the composition, on the left (R270). -/
theorem IsComposition.one_left (h : IsComposition F H 1 0 U2 V2 U V) (h2 : U2 ∣ V2 ^ 2 + H * V2 - F)
    (hd : V2.degree < U2.degree) : U = U2 ∧ V = V2 := by
  obtain ⟨D, S1, S2, S3, N, ⟨hD, hD1, -, -⟩, e1, e2, e3, ⟨q, hq⟩, e5⟩ := h
  obtain rfl : D = 1 := hD.eq_one_of_isUnit (isUnit_of_dvd_one hD1)
  obtain rfl : U = U2 := by linear_combination e2
  obtain ⟨W, hW⟩ := h2
  refine ⟨rfl, eq_of_dvd_sub ⟨-S2 * V2 - S3 * W - q, ?_⟩ e5 hd⟩
  linear_combination e3 - hq - S3 * hW - V2 * e1

/-- The identity is neutral for the composition, on the right (R270). -/
theorem IsComposition.one_right (h : IsComposition F H U1 V1 1 0 U V) (h1 : U1 ∣ V1 ^ 2 + H * V1 - F)
    (hd : V1.degree < U1.degree) : U = U1 ∧ V = V1 := by
  obtain ⟨D, S1, S2, S3, N, ⟨hD, -, hD1, -⟩, e1, e2, e3, ⟨q, hq⟩, e5⟩ := h
  obtain rfl : D = 1 := hD.eq_one_of_isUnit (isUnit_of_dvd_one hD1)
  obtain rfl : U = U1 := by linear_combination e2
  obtain ⟨W, hW⟩ := h1
  refine ⟨rfl, eq_of_dvd_sub ⟨-S1 * V1 - S3 * W - q, ?_⟩ e5 hd⟩
  linear_combination e3 - hq - S3 * hW - V1 * e1

end Sys2Proof.Machine
end

