-- ==== Sys2Proof/Laws/State.lean ====
section
/-! SUPPORT. One lemma per field per state update: what each shared update of Machine/ leaves in each field of State,
so that no proof unfolds a record update. -/

namespace Sys2Proof.Machine

/-! ### accept -/

@[simp] theorem accept_kbitsM1 (cw : Word) (s : State) : (accept cw s).kbitsM1 = s.kbitsM1 := rfl
@[simp] theorem accept_chken (cw : Word) (s : State) : (accept cw s).chken = s.chken := rfl
@[simp] theorem accept_hooken (cw : Word) (s : State) : (accept cw s).hooken = s.hooken := rfl
@[simp] theorem accept_ie (cw : Word) (s : State) : (accept cw s).ie = s.ie := rfl
@[simp] theorem accept_pending (cw : Word) (s : State) :
    (accept cw s).pending = some { cw := cw, chken := s.chken, hooken := s.hooken } := rfl
@[simp] theorem accept_done (cw : Word) (s : State) : (accept cw s).done = false := rfl
@[simp] theorem accept_fault (cw : Word) (s : State) : (accept cw s).fault = s.fault := rfl
@[simp] theorem accept_fcode (cw : Word) (s : State) : (accept cw s).fcode = s.fcode := rfl
@[simp] theorem accept_ovr (cw : Word) (s : State) : (accept cw s).ovr = s.ovr := rfl
@[simp] theorem accept_prm (cw : Word) (s : State) : (accept cw s).prm = s.prm := rfl
@[simp] theorem accept_chk (cw : Word) (s : State) : (accept cw s).chk = s.chk := rfl
@[simp] theorem accept_lastop (cw : Word) (s : State) : (accept cw s).lastop = opField cw := rfl
@[simp] theorem accept_opcnt (cw : Word) (s : State) : (accept cw s).opcnt = s.opcnt := rfl
@[simp] theorem accept_params (cw : Word) (s : State) : (accept cw s).params = s.params := rfl
@[simp] theorem accept_fa (cw : Word) (s : State) : (accept cw s).fa = s.fa := rfl
@[simp] theorem accept_fb (cw : Word) (s : State) : (accept cw s).fb = s.fb := rfl
@[simp] theorem accept_fr (cw : Word) (s : State) : (accept cw s).fr = s.fr := rfl
@[simp] theorem accept_sel (cw : Word) (s : State) : (accept cw s).sel = s.sel := rfl
@[simp] theorem accept_a (cw : Word) (s : State) : (accept cw s).a = s.a := rfl
@[simp] theorem accept_b (cw : Word) (s : State) : (accept cw s).b = s.b := rfl
@[simp] theorem accept_r (cw : Word) (s : State) : (accept cw s).r = s.r := rfl
@[simp] theorem accept_k (cw : Word) (s : State) : (accept cw s).k = s.k := rfl
@[simp] theorem accept_hooks (cw : Word) (s : State) : (accept cw s).hooks = s.hooks := rfl
@[simp] theorem accept_env (cw : Word) (s : State) : (accept cw s).env = s.env := rfl
@[simp] theorem accept_resps (cw : Word) (s : State) : (accept cw s).resps = s.resps := rfl
@[simp] theorem accept_draws (cw : Word) (s : State) : (accept cw s).draws = s.draws := rfl
@[simp] theorem accept_kbits (cw : Word) (s : State) : (accept cw s).kbits = s.kbits := rfl
@[simp] theorem accept_busy (cw : Word) (s : State) : (accept cw s).busy = true := rfl
@[simp] theorem accept_p (cw : Word) (s : State) : (accept cw s).p = s.p := rfl

/-! ### raiseFault -/

@[simp] theorem raiseFault_kbitsM1 (code : FaultCode) (s : State) : (raiseFault code s).kbitsM1 = s.kbitsM1 := rfl
@[simp] theorem raiseFault_chken (code : FaultCode) (s : State) : (raiseFault code s).chken = s.chken := rfl
@[simp] theorem raiseFault_hooken (code : FaultCode) (s : State) : (raiseFault code s).hooken = s.hooken := rfl
@[simp] theorem raiseFault_ie (code : FaultCode) (s : State) : (raiseFault code s).ie = s.ie := rfl
@[simp] theorem raiseFault_pending (code : FaultCode) (s : State) : (raiseFault code s).pending = none := rfl
@[simp] theorem raiseFault_done (code : FaultCode) (s : State) : (raiseFault code s).done = s.done := rfl
@[simp] theorem raiseFault_fault (code : FaultCode) (s : State) : (raiseFault code s).fault = true := rfl
@[simp] theorem raiseFault_fcode (code : FaultCode) (s : State) : (raiseFault code s).fcode = code := rfl
@[simp] theorem raiseFault_ovr (code : FaultCode) (s : State) : (raiseFault code s).ovr = s.ovr := rfl
@[simp] theorem raiseFault_prm (code : FaultCode) (s : State) : (raiseFault code s).prm = s.prm := rfl
@[simp] theorem raiseFault_chk (code : FaultCode) (s : State) : (raiseFault code s).chk = s.chk := rfl
@[simp] theorem raiseFault_lastop (code : FaultCode) (s : State) : (raiseFault code s).lastop = s.lastop := rfl
@[simp] theorem raiseFault_opcnt (code : FaultCode) (s : State) : (raiseFault code s).opcnt = s.opcnt := rfl
@[simp] theorem raiseFault_params (code : FaultCode) (s : State) : (raiseFault code s).params = s.params := rfl
@[simp] theorem raiseFault_fa (code : FaultCode) (s : State) : (raiseFault code s).fa = s.fa := rfl
@[simp] theorem raiseFault_fb (code : FaultCode) (s : State) : (raiseFault code s).fb = s.fb := rfl
@[simp] theorem raiseFault_fr (code : FaultCode) (s : State) : (raiseFault code s).fr = s.fr := rfl
@[simp] theorem raiseFault_sel (code : FaultCode) (s : State) : (raiseFault code s).sel = s.sel := rfl
@[simp] theorem raiseFault_a (code : FaultCode) (s : State) : (raiseFault code s).a = s.a := rfl
@[simp] theorem raiseFault_b (code : FaultCode) (s : State) : (raiseFault code s).b = s.b := rfl
@[simp] theorem raiseFault_r (code : FaultCode) (s : State) : (raiseFault code s).r = s.r := rfl
@[simp] theorem raiseFault_k (code : FaultCode) (s : State) : (raiseFault code s).k = s.k := rfl
@[simp] theorem raiseFault_hooks (code : FaultCode) (s : State) : (raiseFault code s).hooks = s.hooks := rfl
@[simp] theorem raiseFault_env (code : FaultCode) (s : State) : (raiseFault code s).env = s.env := rfl
@[simp] theorem raiseFault_resps (code : FaultCode) (s : State) : (raiseFault code s).resps = s.resps := rfl
@[simp] theorem raiseFault_draws (code : FaultCode) (s : State) : (raiseFault code s).draws = s.draws := rfl
@[simp] theorem raiseFault_kbits (code : FaultCode) (s : State) : (raiseFault code s).kbits = s.kbits := rfl
@[simp] theorem raiseFault_busy (code : FaultCode) (s : State) : (raiseFault code s).busy = false := rfl
@[simp] theorem raiseFault_p (code : FaultCode) (s : State) : (raiseFault code s).p = s.p := rfl

/-! ### finish -/

@[simp] theorem finish_kbitsM1 (i : Instr) (s : State) : (finish i s).kbitsM1 = s.kbitsM1 := rfl
@[simp] theorem finish_chken (i : Instr) (s : State) : (finish i s).chken = s.chken := rfl
@[simp] theorem finish_hooken (i : Instr) (s : State) : (finish i s).hooken = s.hooken := rfl
@[simp] theorem finish_ie (i : Instr) (s : State) : (finish i s).ie = s.ie := rfl
@[simp] theorem finish_pending (i : Instr) (s : State) : (finish i s).pending = none := rfl
@[simp] theorem finish_done (i : Instr) (s : State) : (finish i s).done = true := rfl
@[simp] theorem finish_fault (i : Instr) (s : State) : (finish i s).fault = s.fault := rfl
@[simp] theorem finish_fcode (i : Instr) (s : State) : (finish i s).fcode = s.fcode := rfl
@[simp] theorem finish_ovr (i : Instr) (s : State) : (finish i s).ovr = s.ovr := rfl
@[simp] theorem finish_prm (i : Instr) (s : State) : (finish i s).prm = s.prm := rfl
@[simp] theorem finish_chk (i : Instr) (s : State) : (finish i s).chk = s.chk := rfl
@[simp] theorem finish_lastop (i : Instr) (s : State) : (finish i s).lastop = s.lastop := rfl
@[simp] theorem finish_opcnt (i : Instr) (s : State) : (finish i s).opcnt = BitVec.ofNat 32 (nops s.kbits i) := rfl
@[simp] theorem finish_params (i : Instr) (s : State) : (finish i s).params = s.params := rfl
@[simp] theorem finish_fa (i : Instr) (s : State) : (finish i s).fa = s.fa := rfl
@[simp] theorem finish_fb (i : Instr) (s : State) : (finish i s).fb = s.fb := rfl
@[simp] theorem finish_fr (i : Instr) (s : State) : (finish i s).fr = s.fr := rfl
@[simp] theorem finish_sel (i : Instr) (s : State) : (finish i s).sel = s.sel := rfl
@[simp] theorem finish_a (i : Instr) (s : State) : (finish i s).a = s.a := rfl
@[simp] theorem finish_b (i : Instr) (s : State) : (finish i s).b = s.b := rfl
@[simp] theorem finish_r (i : Instr) (s : State) : (finish i s).r = s.r := rfl
@[simp] theorem finish_k (i : Instr) (s : State) : (finish i s).k = s.k := rfl
@[simp] theorem finish_hooks (i : Instr) (s : State) :
    (finish i s).hooks = if s.hookSnapshot then s.hooks ++ hookSeq s.kbits i else s.hooks := rfl
@[simp] theorem finish_env (i : Instr) (s : State) : (finish i s).env = s.env := rfl
@[simp] theorem finish_resps (i : Instr) (s : State) : (finish i s).resps = s.resps := rfl
@[simp] theorem finish_draws (i : Instr) (s : State) : (finish i s).draws = s.draws := rfl
@[simp] theorem finish_kbits (i : Instr) (s : State) : (finish i s).kbits = s.kbits := rfl
@[simp] theorem finish_busy (i : Instr) (s : State) : (finish i s).busy = false := rfl
@[simp] theorem finish_p (i : Instr) (s : State) : (finish i s).p = s.p := rfl

/-! ### writeFR -/

@[simp] theorem writeFR_kbitsM1 (v : Nat) (s : State) : (writeFR v s).kbitsM1 = s.kbitsM1 := rfl
@[simp] theorem writeFR_chken (v : Nat) (s : State) : (writeFR v s).chken = s.chken := rfl
@[simp] theorem writeFR_hooken (v : Nat) (s : State) : (writeFR v s).hooken = s.hooken := rfl
@[simp] theorem writeFR_ie (v : Nat) (s : State) : (writeFR v s).ie = s.ie := rfl
@[simp] theorem writeFR_pending (v : Nat) (s : State) : (writeFR v s).pending = s.pending := rfl
@[simp] theorem writeFR_done (v : Nat) (s : State) : (writeFR v s).done = s.done := rfl
@[simp] theorem writeFR_fault (v : Nat) (s : State) : (writeFR v s).fault = s.fault := rfl
@[simp] theorem writeFR_fcode (v : Nat) (s : State) : (writeFR v s).fcode = s.fcode := rfl
@[simp] theorem writeFR_ovr (v : Nat) (s : State) : (writeFR v s).ovr = s.ovr := rfl
@[simp] theorem writeFR_prm (v : Nat) (s : State) : (writeFR v s).prm = s.prm := rfl
@[simp] theorem writeFR_chk (v : Nat) (s : State) : (writeFR v s).chk = s.chk := rfl
@[simp] theorem writeFR_lastop (v : Nat) (s : State) : (writeFR v s).lastop = s.lastop := rfl
@[simp] theorem writeFR_opcnt (v : Nat) (s : State) : (writeFR v s).opcnt = s.opcnt := rfl
@[simp] theorem writeFR_params (v : Nat) (s : State) : (writeFR v s).params = s.params := rfl
@[simp] theorem writeFR_fa (v : Nat) (s : State) : (writeFR v s).fa = s.fa := rfl
@[simp] theorem writeFR_fb (v : Nat) (s : State) : (writeFR v s).fb = s.fb := rfl
@[simp] theorem writeFR_fr (v : Nat) (s : State) : (writeFR v s).fr = BitVec.ofNat 128 v := rfl
@[simp] theorem writeFR_sel (v : Nat) (s : State) : (writeFR v s).sel = s.sel := rfl
@[simp] theorem writeFR_a (v : Nat) (s : State) : (writeFR v s).a = s.a := rfl
@[simp] theorem writeFR_b (v : Nat) (s : State) : (writeFR v s).b = s.b := rfl
@[simp] theorem writeFR_r (v : Nat) (s : State) : (writeFR v s).r = s.r := rfl
@[simp] theorem writeFR_k (v : Nat) (s : State) : (writeFR v s).k = s.k := rfl
@[simp] theorem writeFR_hooks (v : Nat) (s : State) : (writeFR v s).hooks = s.hooks := rfl
@[simp] theorem writeFR_env (v : Nat) (s : State) : (writeFR v s).env = s.env := rfl
@[simp] theorem writeFR_resps (v : Nat) (s : State) : (writeFR v s).resps = s.resps := rfl
@[simp] theorem writeFR_draws (v : Nat) (s : State) : (writeFR v s).draws = s.draws := rfl
@[simp] theorem writeFR_kbits (v : Nat) (s : State) : (writeFR v s).kbits = s.kbits := rfl
@[simp] theorem writeFR_busy (v : Nat) (s : State) : (writeFR v s).busy = s.busy := rfl
@[simp] theorem writeFR_p (v : Nat) (s : State) : (writeFR v s).p = s.p := rfl
@[simp] theorem writeFR_hookSnapshot (v : Nat) (s : State) : (writeFR v s).hookSnapshot = s.hookSnapshot := rfl
@[simp] theorem writeFR_chkSnapshot (v : Nat) (s : State) : (writeFR v s).chkSnapshot = s.chkSnapshot := rfl

/-! ### writeDiv -/

@[simp] theorem writeDiv_kbitsM1 (u v : Poly) (s : State) : (writeDiv u v s).kbitsM1 = s.kbitsM1 := rfl
@[simp] theorem writeDiv_chken (u v : Poly) (s : State) : (writeDiv u v s).chken = s.chken := rfl
@[simp] theorem writeDiv_hooken (u v : Poly) (s : State) : (writeDiv u v s).hooken = s.hooken := rfl
@[simp] theorem writeDiv_ie (u v : Poly) (s : State) : (writeDiv u v s).ie = s.ie := rfl
@[simp] theorem writeDiv_pending (u v : Poly) (s : State) : (writeDiv u v s).pending = s.pending := rfl
@[simp] theorem writeDiv_done (u v : Poly) (s : State) : (writeDiv u v s).done = s.done := rfl
@[simp] theorem writeDiv_fault (u v : Poly) (s : State) : (writeDiv u v s).fault = s.fault := rfl
@[simp] theorem writeDiv_fcode (u v : Poly) (s : State) : (writeDiv u v s).fcode = s.fcode := rfl
@[simp] theorem writeDiv_ovr (u v : Poly) (s : State) : (writeDiv u v s).ovr = s.ovr := rfl
@[simp] theorem writeDiv_prm (u v : Poly) (s : State) : (writeDiv u v s).prm = s.prm := rfl
@[simp] theorem writeDiv_chk (u v : Poly) (s : State) : (writeDiv u v s).chk = s.chk := rfl
@[simp] theorem writeDiv_lastop (u v : Poly) (s : State) : (writeDiv u v s).lastop = s.lastop := rfl
@[simp] theorem writeDiv_opcnt (u v : Poly) (s : State) : (writeDiv u v s).opcnt = s.opcnt := rfl
@[simp] theorem writeDiv_params (u v : Poly) (s : State) : (writeDiv u v s).params = s.params := rfl
@[simp] theorem writeDiv_fa (u v : Poly) (s : State) : (writeDiv u v s).fa = s.fa := rfl
@[simp] theorem writeDiv_fb (u v : Poly) (s : State) : (writeDiv u v s).fb = s.fb := rfl
@[simp] theorem writeDiv_fr (u v : Poly) (s : State) : (writeDiv u v s).fr = s.fr := rfl
@[simp] theorem writeDiv_sel (u v : Poly) (s : State) : (writeDiv u v s).sel = s.sel := rfl
@[simp] theorem writeDiv_a (u v : Poly) (s : State) : (writeDiv u v s).a = s.a := rfl
@[simp] theorem writeDiv_b (u v : Poly) (s : State) : (writeDiv u v s).b = s.b := rfl
@[simp] theorem writeDiv_r (u v : Poly) (s : State) : (writeDiv u v s).r = DivRegs.ofPair u v := rfl
@[simp] theorem writeDiv_k (u v : Poly) (s : State) : (writeDiv u v s).k = s.k := rfl
@[simp] theorem writeDiv_hooks (u v : Poly) (s : State) : (writeDiv u v s).hooks = s.hooks := rfl
@[simp] theorem writeDiv_env (u v : Poly) (s : State) : (writeDiv u v s).env = s.env := rfl
@[simp] theorem writeDiv_resps (u v : Poly) (s : State) : (writeDiv u v s).resps = s.resps := rfl
@[simp] theorem writeDiv_draws (u v : Poly) (s : State) : (writeDiv u v s).draws = s.draws := rfl
@[simp] theorem writeDiv_kbits (u v : Poly) (s : State) : (writeDiv u v s).kbits = s.kbits := rfl
@[simp] theorem writeDiv_busy (u v : Poly) (s : State) : (writeDiv u v s).busy = s.busy := rfl
@[simp] theorem writeDiv_p (u v : Poly) (s : State) : (writeDiv u v s).p = s.p := rfl
@[simp] theorem writeDiv_hookSnapshot (u v : Poly) (s : State) : (writeDiv u v s).hookSnapshot = s.hookSnapshot := rfl
@[simp] theorem writeDiv_chkSnapshot (u v : Poly) (s : State) : (writeDiv u v s).chkSnapshot = s.chkSnapshot := rfl

/-! ### drawR -/

@[simp] theorem drawR_kbitsM1 (s : State) : (drawR s).kbitsM1 = s.kbitsM1 := rfl
@[simp] theorem drawR_chken (s : State) : (drawR s).chken = s.chken := rfl
@[simp] theorem drawR_hooken (s : State) : (drawR s).hooken = s.hooken := rfl
@[simp] theorem drawR_ie (s : State) : (drawR s).ie = s.ie := rfl
@[simp] theorem drawR_pending (s : State) : (drawR s).pending = s.pending := rfl
@[simp] theorem drawR_done (s : State) : (drawR s).done = s.done := rfl
@[simp] theorem drawR_fault (s : State) : (drawR s).fault = s.fault := rfl
@[simp] theorem drawR_fcode (s : State) : (drawR s).fcode = s.fcode := rfl
@[simp] theorem drawR_ovr (s : State) : (drawR s).ovr = s.ovr := rfl
@[simp] theorem drawR_prm (s : State) : (drawR s).prm = s.prm := rfl
@[simp] theorem drawR_chk (s : State) : (drawR s).chk = s.chk := rfl
@[simp] theorem drawR_lastop (s : State) : (drawR s).lastop = s.lastop := rfl
@[simp] theorem drawR_opcnt (s : State) : (drawR s).opcnt = s.opcnt := rfl
@[simp] theorem drawR_params (s : State) : (drawR s).params = s.params := rfl
@[simp] theorem drawR_fa (s : State) : (drawR s).fa = s.fa := rfl
@[simp] theorem drawR_fb (s : State) : (drawR s).fb = s.fb := rfl
@[simp] theorem drawR_fr (s : State) : (drawR s).fr = s.fr := rfl
@[simp] theorem drawR_sel (s : State) : (drawR s).sel = s.sel := rfl
@[simp] theorem drawR_a (s : State) : (drawR s).a = s.a := rfl
@[simp] theorem drawR_b (s : State) : (drawR s).b = s.b := rfl
@[simp] theorem drawR_r (s : State) : (drawR s).r = DivRegs.draw s.draws := rfl
@[simp] theorem drawR_k (s : State) : (drawR s).k = s.k := rfl
@[simp] theorem drawR_hooks (s : State) : (drawR s).hooks = s.hooks := rfl
@[simp] theorem drawR_env (s : State) : (drawR s).env = s.env := rfl
@[simp] theorem drawR_resps (s : State) : (drawR s).resps = s.resps := rfl
@[simp] theorem drawR_draws (s : State) : (drawR s).draws = s.draws + 1 := rfl
@[simp] theorem drawR_kbits (s : State) : (drawR s).kbits = s.kbits := rfl
@[simp] theorem drawR_busy (s : State) : (drawR s).busy = s.busy := rfl
@[simp] theorem drawR_p (s : State) : (drawR s).p = s.p := rfl
@[simp] theorem drawR_hookSnapshot (s : State) : (drawR s).hookSnapshot = s.hookSnapshot := rfl
@[simp] theorem drawR_chkSnapshot (s : State) : (drawR s).chkSnapshot = s.chkSnapshot := rfl

/-! ### writeStatus -/

@[simp] theorem writeStatus_kbitsM1 (w : Word) (s : State) : (writeStatus w s).kbitsM1 = s.kbitsM1 := rfl
@[simp] theorem writeStatus_chken (w : Word) (s : State) : (writeStatus w s).chken = s.chken := rfl
@[simp] theorem writeStatus_hooken (w : Word) (s : State) : (writeStatus w s).hooken = s.hooken := rfl
@[simp] theorem writeStatus_ie (w : Word) (s : State) : (writeStatus w s).ie = s.ie := rfl
@[simp] theorem writeStatus_pending (w : Word) (s : State) : (writeStatus w s).pending = s.pending := rfl
@[simp] theorem writeStatus_done (w : Word) (s : State) : (writeStatus w s).done = (s.done && !w.getLsbD 1) := rfl
@[simp] theorem writeStatus_fault (w : Word) (s : State) : (writeStatus w s).fault = s.fault := rfl
@[simp] theorem writeStatus_fcode (w : Word) (s : State) : (writeStatus w s).fcode = s.fcode := rfl
@[simp] theorem writeStatus_ovr (w : Word) (s : State) : (writeStatus w s).ovr = (s.ovr && !w.getLsbD 3) := rfl
@[simp] theorem writeStatus_prm (w : Word) (s : State) : (writeStatus w s).prm = s.prm := rfl
@[simp] theorem writeStatus_chk (w : Word) (s : State) : (writeStatus w s).chk = s.chk := rfl
@[simp] theorem writeStatus_lastop (w : Word) (s : State) : (writeStatus w s).lastop = s.lastop := rfl
@[simp] theorem writeStatus_opcnt (w : Word) (s : State) : (writeStatus w s).opcnt = s.opcnt := rfl
@[simp] theorem writeStatus_params (w : Word) (s : State) : (writeStatus w s).params = s.params := rfl
@[simp] theorem writeStatus_fa (w : Word) (s : State) : (writeStatus w s).fa = s.fa := rfl
@[simp] theorem writeStatus_fb (w : Word) (s : State) : (writeStatus w s).fb = s.fb := rfl
@[simp] theorem writeStatus_fr (w : Word) (s : State) : (writeStatus w s).fr = s.fr := rfl
@[simp] theorem writeStatus_sel (w : Word) (s : State) : (writeStatus w s).sel = s.sel := rfl
@[simp] theorem writeStatus_a (w : Word) (s : State) : (writeStatus w s).a = s.a := rfl
@[simp] theorem writeStatus_b (w : Word) (s : State) : (writeStatus w s).b = s.b := rfl
@[simp] theorem writeStatus_r (w : Word) (s : State) : (writeStatus w s).r = s.r := rfl
@[simp] theorem writeStatus_k (w : Word) (s : State) : (writeStatus w s).k = s.k := rfl
@[simp] theorem writeStatus_hooks (w : Word) (s : State) : (writeStatus w s).hooks = s.hooks := rfl
@[simp] theorem writeStatus_env (w : Word) (s : State) : (writeStatus w s).env = s.env := rfl
@[simp] theorem writeStatus_resps (w : Word) (s : State) : (writeStatus w s).resps = s.resps := rfl
@[simp] theorem writeStatus_draws (w : Word) (s : State) : (writeStatus w s).draws = s.draws := rfl
@[simp] theorem writeStatus_kbits (w : Word) (s : State) : (writeStatus w s).kbits = s.kbits := rfl
@[simp] theorem writeStatus_busy (w : Word) (s : State) : (writeStatus w s).busy = s.busy := rfl
@[simp] theorem writeStatus_p (w : Word) (s : State) : (writeStatus w s).p = s.p := rfl
@[simp] theorem writeStatus_hookSnapshot (w : Word) (s : State) : (writeStatus w s).hookSnapshot = s.hookSnapshot := rfl
@[simp] theorem writeStatus_chkSnapshot (w : Word) (s : State) : (writeStatus w s).chkSnapshot = s.chkSnapshot := rfl

/-! ### writeCtrl -/

@[simp] theorem writeCtrl_kbitsM1 (w : Word) (s : State) : (writeCtrl w s).kbitsM1 = s.kbitsM1 := rfl
@[simp] theorem writeCtrl_chken (w : Word) (s : State) : (writeCtrl w s).chken = w.getLsbD 0 := rfl
@[simp] theorem writeCtrl_hooken (w : Word) (s : State) : (writeCtrl w s).hooken = w.getLsbD 1 := rfl
@[simp] theorem writeCtrl_ie (w : Word) (s : State) : (writeCtrl w s).ie = w.getLsbD 2 := rfl
@[simp] theorem writeCtrl_pending (w : Word) (s : State) : (writeCtrl w s).pending = s.pending := rfl
@[simp] theorem writeCtrl_done (w : Word) (s : State) : (writeCtrl w s).done = s.done := rfl
@[simp] theorem writeCtrl_fault (w : Word) (s : State) : (writeCtrl w s).fault = s.fault := rfl
@[simp] theorem writeCtrl_fcode (w : Word) (s : State) : (writeCtrl w s).fcode = s.fcode := rfl
@[simp] theorem writeCtrl_ovr (w : Word) (s : State) : (writeCtrl w s).ovr = s.ovr := rfl
@[simp] theorem writeCtrl_prm (w : Word) (s : State) : (writeCtrl w s).prm = s.prm := rfl
@[simp] theorem writeCtrl_chk (w : Word) (s : State) : (writeCtrl w s).chk = s.chk := rfl
@[simp] theorem writeCtrl_lastop (w : Word) (s : State) : (writeCtrl w s).lastop = s.lastop := rfl
@[simp] theorem writeCtrl_opcnt (w : Word) (s : State) : (writeCtrl w s).opcnt = s.opcnt := rfl
@[simp] theorem writeCtrl_params (w : Word) (s : State) : (writeCtrl w s).params = s.params := rfl
@[simp] theorem writeCtrl_fa (w : Word) (s : State) : (writeCtrl w s).fa = s.fa := rfl
@[simp] theorem writeCtrl_fb (w : Word) (s : State) : (writeCtrl w s).fb = s.fb := rfl
@[simp] theorem writeCtrl_fr (w : Word) (s : State) : (writeCtrl w s).fr = s.fr := rfl
@[simp] theorem writeCtrl_sel (w : Word) (s : State) : (writeCtrl w s).sel = s.sel := rfl
@[simp] theorem writeCtrl_a (w : Word) (s : State) : (writeCtrl w s).a = s.a := rfl
@[simp] theorem writeCtrl_b (w : Word) (s : State) : (writeCtrl w s).b = s.b := rfl
@[simp] theorem writeCtrl_r (w : Word) (s : State) : (writeCtrl w s).r = s.r := rfl
@[simp] theorem writeCtrl_k (w : Word) (s : State) : (writeCtrl w s).k = s.k := rfl
@[simp] theorem writeCtrl_hooks (w : Word) (s : State) : (writeCtrl w s).hooks = s.hooks := rfl
@[simp] theorem writeCtrl_env (w : Word) (s : State) : (writeCtrl w s).env = s.env := rfl
@[simp] theorem writeCtrl_resps (w : Word) (s : State) : (writeCtrl w s).resps = s.resps := rfl
@[simp] theorem writeCtrl_draws (w : Word) (s : State) : (writeCtrl w s).draws = s.draws := rfl
@[simp] theorem writeCtrl_kbits (w : Word) (s : State) : (writeCtrl w s).kbits = s.kbits := rfl
@[simp] theorem writeCtrl_busy (w : Word) (s : State) : (writeCtrl w s).busy = s.busy := rfl
@[simp] theorem writeCtrl_p (w : Word) (s : State) : (writeCtrl w s).p = s.p := rfl

/-! ### resetCore -/

@[simp] theorem resetCore_kbitsM1 (s : State) : (resetCore s).kbitsM1 = s.kbitsM1 := rfl
@[simp] theorem resetCore_chken (s : State) : (resetCore s).chken = State.reset.chken := rfl
@[simp] theorem resetCore_hooken (s : State) : (resetCore s).hooken = State.reset.hooken := rfl
@[simp] theorem resetCore_ie (s : State) : (resetCore s).ie = State.reset.ie := rfl
@[simp] theorem resetCore_pending (s : State) : (resetCore s).pending = State.reset.pending := rfl
@[simp] theorem resetCore_done (s : State) : (resetCore s).done = State.reset.done := rfl
@[simp] theorem resetCore_fault (s : State) : (resetCore s).fault = State.reset.fault := rfl
@[simp] theorem resetCore_fcode (s : State) : (resetCore s).fcode = State.reset.fcode := rfl
@[simp] theorem resetCore_ovr (s : State) : (resetCore s).ovr = State.reset.ovr := rfl
@[simp] theorem resetCore_prm (s : State) : (resetCore s).prm = State.reset.prm := rfl
@[simp] theorem resetCore_chk (s : State) : (resetCore s).chk = State.reset.chk := rfl
@[simp] theorem resetCore_lastop (s : State) : (resetCore s).lastop = State.reset.lastop := rfl
@[simp] theorem resetCore_opcnt (s : State) : (resetCore s).opcnt = State.reset.opcnt := rfl
@[simp] theorem resetCore_params (s : State) : (resetCore s).params = State.reset.params := rfl
@[simp] theorem resetCore_fa (s : State) : (resetCore s).fa = State.reset.fa := rfl
@[simp] theorem resetCore_fb (s : State) : (resetCore s).fb = State.reset.fb := rfl
@[simp] theorem resetCore_fr (s : State) : (resetCore s).fr = State.reset.fr := rfl
@[simp] theorem resetCore_sel (s : State) : (resetCore s).sel = State.reset.sel := rfl
@[simp] theorem resetCore_a (s : State) : (resetCore s).a = State.reset.a := rfl
@[simp] theorem resetCore_b (s : State) : (resetCore s).b = State.reset.b := rfl
@[simp] theorem resetCore_r (s : State) : (resetCore s).r = State.reset.r := rfl
@[simp] theorem resetCore_k (s : State) : (resetCore s).k = State.reset.k := rfl
@[simp] theorem resetCore_hooks (s : State) : (resetCore s).hooks = s.hooks := rfl
@[simp] theorem resetCore_env (s : State) : (resetCore s).env = s.env := rfl
@[simp] theorem resetCore_resps (s : State) : (resetCore s).resps = s.resps := rfl
@[simp] theorem resetCore_draws (s : State) : (resetCore s).draws = s.draws := rfl
@[simp] theorem resetCore_kbits (s : State) : (resetCore s).kbits = s.kbits := rfl
@[simp] theorem resetCore_busy (s : State) : (resetCore s).busy = false := rfl

end Sys2Proof.Machine
end

