-- ==== Sys2Proof/Laws/Ops.lean ====
section
/-! SUPPORT. What the shared operations can do, said once: completions, checks, the sequencer's turn and the step. -/

namespace Sys2Proof.Machine

/-- A completion whose checks raise `code` takes that fault (R148). -/
theorem complete_of_fault {i : Instr} {check : State → Option FaultCode} {effect : State → State} {s : State}
    {code : FaultCode} (h : check s = some code) : complete i check effect s = .next (raiseFault code s) := by
  simp [complete, h]

/-- A completion whose checks pass performs the effect and finishes (R147). -/
theorem complete_of_pass {i : Instr} {check : State → Option FaultCode} {effect : State → State} {s : State}
    (h : check s = none) : complete i check effect s = .next (finish i (effect s)) := by
  simp [complete, h]

/-- All that a completion can do: take the fault its checks raise, or perform the effect and finish (R142). -/
theorem complete_cases {i : Instr} {check : State → Option FaultCode} {effect : State → State} {s t : State}
    (h : complete i check effect s = .next t) :
    (∃ code, check s = some code ∧ t = raiseFault code s) ∨ (check s = none ∧ t = finish i (effect s)) := by
  unfold complete at h
  split at h
  · exact .inl ⟨_, ‹_›, by cases h; rfl⟩
  · exact .inr ⟨‹_›, by cases h; rfl⟩

/-- NO_PARAMS is raised exactly when PRM = 0 (R145). -/
theorem needParams_eq_none_iff (s : State) : needParams s = none ↔ s.prm = true := by
  unfold needParams
  split <;> simp_all

/-- `needParams` can raise NO_PARAMS only. -/
theorem needParams_eq_some_iff (s : State) (code : FaultCode) :
    needParams s = some code ↔ s.prm = false ∧ code = .noParams := by
  unfold needParams
  cases s.prm
  · simpa using eq_comm
  · simp

/-- The checks of FADD, FSUB, FMUL and FSEL pass exactly when PRM = 1 and both operands are in range (R160). -/
theorem checkFAFB_eq_none_iff (s : State) :
    checkFAFB s = none ↔ s.prm = true ∧ s.fa.toNat < s.p ∧ s.fb.toNat < s.p := by
  unfold checkFAFB needParams State.inRange
  cases s.prm <;> simp

/-- The checks of FNEG and FINV pass exactly when PRM = 1 and FA is in range (R160). -/
theorem checkFA_eq_none_iff (s : State) : checkFA s = none ↔ s.prm = true ∧ s.fa.toNat < s.p := by
  unfold checkFA needParams State.inRange
  cases s.prm <;> simp

/-- The checks of INIT pass exactly when PRM = 0 and the staging registers hold a legal parameter set (R143). -/
theorem initChecks_eq_none_iff (s : State) : initChecks s = none ↔ s.prm = false ∧ paramOK s.params = true := by
  unfold initChecks
  cases s.prm <;> simp

/-- The checks of DNORM pass exactly when PRM = 1 and A is NormOK (R237). -/
theorem dnormChecks_eq_none_iff (s : State) : dnormChecks s = none ↔ s.prm = true ∧ normOK s.p s.a = true := by
  unfold dnormChecks needParams
  cases s.prm <;> simp

/-- The group checks pass exactly when PRM = 1, every set is StrictOK and, with CHKEN sampled 1, every set is on the
curve (R265). -/
theorem groupChecks_eq_none_iff (Ds : List DivRegs) (s : State) :
    groupChecks Ds s = none ↔ s.prm = true ∧ (∀ D ∈ Ds, strictOK s.p D = true) ∧
      (s.chkSnapshot = true → ∀ D ∈ Ds, member s.p s.params.f s.params.h D = true) := by
  unfold groupChecks needParams
  cases s.prm
  · simp
  rw [← List.all_eq_true]
  simp only [if_true, true_and]
  cases Ds.all (strictOK s.p) <;> simp

/-- The sequencer's turn with no command pending does nothing (R142). -/
theorem sequencerTurn_of_idle {s : State} (h : s.pending = none) : sequencerTurn s = .next s := by
  simp [sequencerTurn, h]

/-- The sequencer's turn with a command pending completes it (R142). -/
theorem sequencerTurn_of_command {s : State} {c : Pending} {i : Instr} (h : s.pending = some c)
    (hd : decode c.cw = .ok i) : sequencerTurn s = exec i s := by
  simp [sequencerTurn, h, hd]

/-- The sequencer's turn with an illegal word pending takes ILLEGAL_CMD (R146). -/
theorem sequencerTurn_of_illegal {s : State} {c : Pending} {e : DecodeReject} (h : s.pending = some c)
    (hd : decode c.cw = .error e) : sequencerTurn s = .next (raiseFault .illegalCmd s) := by
  simp [sequencerTurn, h, hd, completeIllegal]

/-- All that the sequencer's turn can do. -/
theorem sequencerTurn_cases {s t : State} (h : sequencerTurn s = .next t) :
    (s.pending = none ∧ t = s) ∨
    (∃ c, s.pending = some c ∧
      ((∃ i, decode c.cw = .ok i ∧ exec i s = .next t) ∨
        (∃ e, decode c.cw = .error e ∧ t = raiseFault .illegalCmd s))) := by
  unfold sequencerTurn at h
  split at h
  · exact .inl ⟨‹_›, by cases h; rfl⟩
  · refine .inr ⟨_, ‹_›, ?_⟩
    split at h
    · exact .inl ⟨_, ‹_›, h⟩
    · exact .inr ⟨_, ‹_›, by simp only [completeIllegal] at h; cases h; rfl⟩

/-- All that a step can do. -/
theorem step_cases {s t : State} (h : step s = .next t) :
    (s.env = [] ∧ sequencerTurn s = .next t) ∨
    (∃ es, s.env = .sequencer :: es ∧ sequencerTurn { s with env := es } = .next t) ∨
    (∃ x es, s.env = .bus x :: es ∧ t = busAccess x { s with env := es }) ∨
    (∃ es, s.env = .hardReset :: es ∧ t = hardReset { s with env := es }) := by
  unfold step at h
  split at h
  · exact .inl ⟨‹_›, h⟩
  · exact .inr (.inl ⟨_, ‹_›, h⟩)
  · exact .inr (.inr (.inl ⟨_, _, ‹_›, by cases h; rfl⟩))
  · exact .inr (.inr (.inr ⟨_, ‹_›, by cases h; rfl⟩))

end Sys2Proof.Machine
end

