-- ==== Sys2Proof/Laws/Commands.lean ====
section
/-! SUPPORT. Every command as a completion: its checks and its effect, and what the effects leave alone, so that a
proof about all commands cites `exec_eq_complete` and `exec_cases` and unfolds no meaning. -/

namespace Sys2Proof.Machine

/-- The Checks block of a command (R313). -/
def checksOf : Instr → State → Option FaultCode
  | .init  => initChecks
  | .fadd  => checkFAFB
  | .fsub  => checkFAFB
  | .fmul  => checkFAFB
  | .fneg  => checkFA
  | .finv  => checkFA
  | .fsel  => checkFAFB
  | .movfa => noChecks
  | .movfb => noChecks
  | .did   => noChecks
  | .dchk  => needParams
  | .dnorm => dnormChecks
  | .movra => noChecks
  | .movrb => noChecks
  | .dadd  => fun s => groupChecks [s.a, s.b] s
  | .ddbl  => fun s => groupChecks [s.a] s
  | .dsmul => fun s => groupChecks [s.a] s

/-- The Execute block of a command (R142). -/
def effectOf : Instr → State → State
  | .init  => fun s => { s with prm := true }
  | .fadd  => fun s => writeFR (addp s.p s.fa.toNat s.fb.toNat) s
  | .fsub  => fun s => writeFR (subp s.p s.fa.toNat s.fb.toNat) s
  | .fmul  => fun s => writeFR (mulp s.p s.fa.toNat s.fb.toNat) s
  | .fneg  => fun s => writeFR (negp s.p s.fa.toNat) s
  | .finv  => fun s => writeFR (invp s.p s.fa.toNat) s
  | .fsel  => fun s => { s with fr := maskedSelect s.sel s.fa s.fb }
  | .movfa => fun s => { s with fa := s.fr }
  | .movfb => fun s => { s with fb := s.fr }
  | .did   => writeDiv [1] []
  | .dchk  => fun s => { s with chk := s.validDivisor s.a }
  | .dnorm => dnormEffect
  | .movra => fun s => { s with a := s.r }
  | .movrb => fun s => { s with b := s.r }
  | .dadd  => groupEffect (fun s => [s.a, s.b]) (fun s => s.cantor s.a s.b)
  | .ddbl  => groupEffect (fun s => [s.a]) (fun s => s.cantor s.a s.a)
  | .dsmul => groupEffect (fun s => [s.a]) State.smul

/-- Every command is the completion of its checks and its effect (R142). -/
theorem exec_eq_complete (i : Instr) (s : State) : exec i s = complete i (checksOf i) (effectOf i) s := by
  cases i <;> rfl

/-- All that a command can do: take the fault its checks raise, or perform its effect and finish. -/
theorem exec_cases {i : Instr} {s t : State} (h : exec i s = .next t) :
    (∃ code, checksOf i s = some code ∧ t = raiseFault code s) ∨
      (checksOf i s = none ∧ t = finish i (effectOf i s)) :=
  complete_cases (exec_eq_complete i s ▸ h)

/-- A group command writes the reference result in the valid domain and a draw outside it. -/
theorem groupEffect_cases (Ds : State → List DivRegs) (result : State → Mumford) (s : State) :
    (s.valid (Ds s) = true ∧ groupEffect Ds result s = writeDiv (result s).1 (result s).2 s) ∨
      (s.valid (Ds s) = false ∧ groupEffect Ds result s = drawR s) := by
  unfold groupEffect
  cases s.valid (Ds s) <;> simp

/-- DNORM writes the normalized divisor for a prime p and a draw for another. -/
theorem dnormEffect_cases (s : State) :
    (primeP s.p = true ∧ dnormEffect s = writeDiv (normalize s.p s.a).1 (normalize s.p s.a).2 s) ∨
      (primeP s.p = false ∧ dnormEffect s = drawR s) := by
  unfold dnormEffect
  cases primeP s.p <;> simp

/-- A group command's effect changes R and the count of draws only. -/
theorem groupEffect_frame (Ds : State → List DivRegs) (result : State → Mumford) (s : State) :
    groupEffect Ds result s = { s with r := (groupEffect Ds result s).r, draws := (groupEffect Ds result s).draws } := by
  rcases groupEffect_cases Ds result s with ⟨_, h⟩ | ⟨_, h⟩ <;> rw [h] <;> rfl

/-- DNORM's effect changes R and the count of draws only. -/
theorem dnormEffect_frame (s : State) :
    dnormEffect s = { s with r := (dnormEffect s).r, draws := (dnormEffect s).draws } := by
  rcases dnormEffect_cases s with ⟨_, h⟩ | ⟨_, h⟩ <;> rw [h] <;> rfl

/-- What no command's effect touches: everything but its destinations PRM, CHK, FR, FA, FB, A, B, R (R113) and the
count of draws. -/
theorem effectOf_frame (i : Instr) (s : State) :
    effectOf i s =
      { s with
        prm := (effectOf i s).prm
        chk := (effectOf i s).chk
        fr := (effectOf i s).fr
        fa := (effectOf i s).fa
        fb := (effectOf i s).fb
        a := (effectOf i s).a
        b := (effectOf i s).b
        r := (effectOf i s).r
        draws := (effectOf i s).draws } := by
  have hg : ∀ Ds result, groupEffect Ds result s = _ := fun Ds result => groupEffect_frame Ds result s
  cases i with
  | dadd => simp only [effectOf]; rw [hg]
  | ddbl => simp only [effectOf]; rw [hg]
  | dsmul => simp only [effectOf]; rw [hg]
  | dnorm => simp only [effectOf]; rw [dnormEffect_frame]
  | _ => rfl

end Sys2Proof.Machine
end

