-- ==== Sys2Proof/Laws/Window.lean ====
section
/-! SUPPORT. What bus transactions and resets can do, said once. -/

namespace Sys2Proof.Machine

/-- What a write of the register word `g` of an idle core can leave (R85). -/
inductive RegWrite (g : RegWord) (w : Word) (s : State) : State → Prop where
  | ignored : RegWrite g w s s
  | accepted (hg : g = .cmd) (hf : s.fault = false) : RegWrite g w s (accept w s)
  | reset (hg : g = .ctrl) (hw : w.getLsbD 31 = true) : RegWrite g w s (resetCore s)
  | ctrl (hg : g = .ctrl) (hw : w.getLsbD 31 = false) : RegWrite g w s (writeCtrl w s)
  | params (hp : s.prm = false) (c : CurveParams) : RegWrite g w s { s with params := c }
  | fa (v : FieldWord) : RegWrite g w s { s with fa := v }
  | fb (v : FieldWord) : RegWrite g w s { s with fb := v }
  | sel (v : Bool) : RegWrite g w s { s with sel := v }
  | setA (D : DivRegs) : RegWrite g w s { s with a := D }
  | setB (D : DivRegs) : RegWrite g w s { s with b := D }
  | scalar (i : Fin 8) : RegWrite g w s { s with k := setScalarWord s.kbits s.k i w }
  | status : RegWrite g w s (writeStatus w s)

/-- All that a write of a register word of an idle core can do (R85). -/
theorem writeReg_spec (g : RegWord) (w : Word) (s : State) : RegWrite g w s (writeReg g w s) := by
  have hdiv : ∀ S D, RegWrite g w s (s.hostSetDiv S D) := by
    intro S D
    cases S
    exacts [.setA D, .setB D, .ignored]
  cases g with
  | cmd =>
    change RegWrite _ w s (if s.fault then s else accept w s)
    split
    exacts [.ignored, .accepted rfl (by simpa using ‹¬s.fault = true›)]
  | ctrl =>
    change RegWrite _ w s (if w.getLsbD 31 then resetCore s else writeCtrl w s)
    split
    exacts [.reset rfl ‹_›, .ctrl rfl (by simpa using ‹¬w.getLsbD 31 = true›)]
  | param q i =>
    change RegWrite _ w s (if s.prm then s else _)
    split
    exacts [.ignored, .params (by simpa using ‹¬s.prm = true›) _]
  | fa i => exact .fa _
  | fb i => exact .fb _
  | fc => exact .sel _
  | coef S c i => exact hdiv S _
  | degree S d => exact hdiv S _
  | k i => exact .scalar i
  | status => exact .status
  | id => exact .ignored
  | opcnt => exact .ignored
  | kbits => exact .ignored
  | fr i => exact .ignored

/-- All that a word write can do: a STATUS write, a dropped write while BUSY, or, while the core is idle, the write of
a register word or nothing (R85, R87, R90). -/
theorem memWrite_cases (off : Offset) (w : Word) (s : State) :
    (locate off = some .status ∧ memWrite off w s = writeStatus w s) ∨
    (s.busy = true ∧ memWrite off w s = { s with ovr := true }) ∨
    (s.busy = false ∧ ∃ g, locate off = some g ∧ memWrite off w s = writeReg g w s) ∨
    (s.busy = false ∧ locate off = none ∧ memWrite off w s = s) := by
  unfold memWrite
  split
  · exact .inl ⟨‹_›, rfl⟩
  · split
    · exact .inr (.inl ⟨‹_›, rfl⟩)
    · have hb : s.busy = false := by simpa using ‹¬s.busy = true›
      split
      · exact .inr (.inr (.inr ⟨hb, ‹_›, rfl⟩))
      · exact .inr (.inr (.inl ⟨hb, _, ‹_›, rfl⟩))

/-- All that a bus transaction can do: append a response, after a word write where it is one (R82, R83). -/
theorem busAccess_cases (t : Txn) (s : State) :
    (∃ r, busAccess t s = s.respond r) ∨
    (t.rw = .write ∧ t.wellFormed = true ∧ busAccess t s = (memWrite t.off t.wdata s).respond ⟨.okay, none⟩) := by
  unfold busAccess
  split
  · split
    · exact .inl ⟨_, rfl⟩
    · exact .inr ⟨‹_›, ‹_›, rfl⟩
  · exact .inl ⟨_, rfl⟩

/-- The hardware reset leaves the core reset, with hook events appended and draws taken (R351, R353). -/
theorem hardReset_eq (s : State) :
    ∃ ev d, hardReset s = resetCore { s with hooks := s.hooks ++ ev, draws := d } := by
  unfold hardReset
  split
  · exact ⟨[], s.draws, by simp⟩
  · exact ⟨_, _, rfl⟩

/-- A property of every offset, from 64 blocks of 64: what `decide` can run through. -/
theorem forall_offset {P : Offset → Prop} (h : ∀ a < 64, ∀ b < 64, P (BitVec.ofNat 12 (64 * a + b))) (off : Offset) :
    P off := by
  have hlt : off.toNat < 4096 := off.isLt
  have := h (off.toNat / 64) (by omega) (off.toNat % 64) (Nat.mod_lt _ (by omega))
  rwa [Nat.div_add_mod, BitVec.ofNat_toNat, BitVec.setWidth_eq] at this

end Sys2Proof.Machine
end

