-- ==== Sys2Proof/Laws/HostAsm.lean ====
section
/-! SUPPORT. What the statements of host assembly do: events and steps, reads and their responses, the loop `wait`. -/

namespace Sys2Proof.Machine.HostAsm

/-- The sequencer's turn answers the state `turn` names. -/
theorem sequencerTurn_eq (s : State) : sequencerTurn s = .next (turn s) := by
  unfold turn
  cases h : sequencerTurn s with
  | next t => rfl
  | fault f => exact nomatch f
  | refused r =>
    exfalso
    unfold sequencerTurn at h
    split at h
    · cases h
    · split at h
      · rw [exec_eq_complete] at h
        unfold complete at h
        split at h <;> cases h
      · cases h

/-- A step with an event at the head of the environment's list is that event, on the state with it taken off. -/
theorem step_eq_happen {s : State} {e : EnvEvent} {es : List EnvEvent} (h : s.env = e :: es) :
    step s = .next (happen { s with env := es } e) := by
  unfold step
  rw [h]
  cases e with
  | sequencer => exact sequencerTurn_eq _
  | bus t => rfl
  | hardReset => rfl

/-- A run of one step more takes the step first. -/
theorem run_succ {s t : State} (h : step s = .next t) (n : Nat) : core.run (n + 1) s = core.run n t := by
  have key : ∀ (M : Host.Core) (s t : M.State), M.step s = .next t → M.run (n + 1) s = M.run n t :=
    fun M s t h => by simp [Host.Core.run, h]
  exact key core s t h

/-- After the sequencer's turn no command is pending (R142). -/
theorem turn_busy (s : State) : (turn s).busy = false := by
  rcases sequencerTurn_cases (sequencerTurn_eq s) with ⟨h, e⟩ | ⟨c, -, ⟨i, -, h⟩ | ⟨e, -, h⟩⟩
  · rw [e]
    simp [State.busy, h]
  · rcases exec_cases h with ⟨code, -, h⟩ | ⟨-, h⟩ <;> rw [h] <;> rfl
  · rw [h]
    rfl

/-- A read gives its response and leaves the rest (R84, R91). -/
theorem happen_rd {off : Offset} (h : off.toNat % 4 = 0) (s : State) :
    happen s (rd off) = s.respond ⟨.okay, some (memRead off s)⟩ := by
  simp [happen, rd, envAccess, busAccess, Txn.wellFormed, h]

/-- No read depends on the responses given so far. -/
@[simp] theorem memRead_respond (off : Offset) (s : State) (r : Response) : memRead off (s.respond r) = memRead off s := rfl

/-- The responses to a list of aligned reads are what the state reads there. -/
theorem perform_rds (offs : List Offset) (h : ∀ o ∈ offs, o.toNat % 4 = 0) (s : State) :
    perform (offs.map rd) s = { s with resps := s.resps ++ offs.map fun o => ⟨.okay, some (memRead o s)⟩ } := by
  induction offs generalizing s with
  | nil => simp [perform]
  | cons o os ih =>
    have hs := ih (fun o' ho' => h o' (List.mem_cons_of_mem _ ho')) (s.respond ⟨.okay, some (memRead o s)⟩)
    simp only [perform, List.map_cons, List.foldl_cons] at hs ⊢
    rw [happen_rd (h o (List.mem_cons_self ..)), hs]
    simp [State.respond]
    intro a _
    rfl

/-- The responses to a list of aligned reads (R84). -/
theorem answers_rds (offs : List Offset) (h : ∀ o ∈ offs, o.toNat % 4 = 0) (s : State) :
    answers (offs.map rd) s = offs.map fun o => ⟨.okay, some (memRead o s)⟩ := by
  simp [answers, perform_rds offs h]

/-- Bit 0 of STATUS is BUSY (R34). -/
theorem status_bit_zero (s : State) : (memRead (offsetOf .status) s).getLsbD 0 = s.busy := by
  have h : memRead (offsetOf .status) s = s.statusWord := by
    have hl : locate (offsetOf .status) = some .status := by decide
    simp [memRead, hl, RegWord.isResult, readReg]
  rw [h]
  simp [State.statusWord, flagAt]

/-- The loop `wait` ends with the core idle (R122). -/
theorem busy_of_isWait {s : State} {es : List EnvEvent} (h : isWait s es = true) : (perform es s).busy = false := by
  induction es generalizing s with
  | nil => cases h
  | cons e es ih =>
    cases e with
    | sequencer => exact ih h
    | hardReset => exact ih h
    | bus t =>
      rw [isWait, Bool.and_eq_true, status_bit_zero] at h
      obtain ⟨he, h⟩ := h
      split at h
      · exact ih h
      · rename_i hb
        have he := eq_of_beq he
        rw [List.isEmpty_iff.1 h, he]
        change (happen s poll).busy = false
        rw [poll, happen_rd (by decide)]
        change s.busy = false
        simpa using hb

/-- Any number of polls before the completion is a course of `wait` (R122, R149). -/
theorem isWait_wait {s : State} (h : s.busy = true) (polls : Nat) : isWait s (wait polls) = true := by
  induction polls generalizing s with
  | zero =>
    change (poll == poll && (if (memRead (offsetOf .status) (turn s)).getLsbD 0 then _ else _)) = true
    rw [status_bit_zero, turn_busy]
    simp
  | succ n ih =>
    change (poll == poll && (if (memRead (offsetOf .status) s).getLsbD 0 then isWait (happen s poll) (wait n) else _)) = true
    rw [status_bit_zero, h, poll, happen_rd (by decide)]
    simpa using ih (s := s.respond _) h

end Sys2Proof.Machine.HostAsm
end

