-- ==== Sys2Proof/Laws/PerInstr.lean ====
section
/-! SUPPORT. Families of laws with one lemma for each command. -/

namespace Sys2Proof.Laws

/-- The command word of a command carries its opcode in bits 7:0 and zeros in the reserved bits, and no check on
command words refuses it (R110, R112, R115). -/
def CommandWord.Statement (i : Instr) : Prop :=
  opField (encode i) = opcode i ∧ rsvdField (encode i) = 0 ∧ commandWordWellFormed (encode i) = true

theorem CommandWord.init : CommandWord.Statement .init := ⟨by decide, by decide, by decide⟩
theorem CommandWord.fadd : CommandWord.Statement .fadd := ⟨by decide, by decide, by decide⟩
theorem CommandWord.fsub : CommandWord.Statement .fsub := ⟨by decide, by decide, by decide⟩
theorem CommandWord.fmul : CommandWord.Statement .fmul := ⟨by decide, by decide, by decide⟩
theorem CommandWord.fneg : CommandWord.Statement .fneg := ⟨by decide, by decide, by decide⟩
theorem CommandWord.finv : CommandWord.Statement .finv := ⟨by decide, by decide, by decide⟩
theorem CommandWord.fsel : CommandWord.Statement .fsel := ⟨by decide, by decide, by decide⟩
theorem CommandWord.movfa : CommandWord.Statement .movfa := ⟨by decide, by decide, by decide⟩
theorem CommandWord.movfb : CommandWord.Statement .movfb := ⟨by decide, by decide, by decide⟩
theorem CommandWord.did : CommandWord.Statement .did := ⟨by decide, by decide, by decide⟩
theorem CommandWord.dchk : CommandWord.Statement .dchk := ⟨by decide, by decide, by decide⟩
theorem CommandWord.dnorm : CommandWord.Statement .dnorm := ⟨by decide, by decide, by decide⟩
theorem CommandWord.movra : CommandWord.Statement .movra := ⟨by decide, by decide, by decide⟩
theorem CommandWord.movrb : CommandWord.Statement .movrb := ⟨by decide, by decide, by decide⟩
theorem CommandWord.dadd : CommandWord.Statement .dadd := ⟨by decide, by decide, by decide⟩
theorem CommandWord.ddbl : CommandWord.Statement .ddbl := ⟨by decide, by decide, by decide⟩
theorem CommandWord.dsmul : CommandWord.Statement .dsmul := ⟨by decide, by decide, by decide⟩

end Sys2Proof.Laws
end

