-- ==== Sys2Proof/Laws/Represent.lean ====
section
/-! SUPPORT. Coefficient lists as polynomials over Z/p. -/

namespace Sys2Proof.Machine

/-- Every coefficient list stands for a polynomial. -/
theorem exists_represents (p : Nat) (a : Poly) : ∃ A : Polynomial (ZMod p), Represents p a A := by
  refine ⟨∑ i ∈ Finset.range a.length, Polynomial.monomial i (coeff a i : ZMod p), fun n => ?_⟩
  rw [Polynomial.finsetSum_coeff]
  simp only [Polynomial.coeff_monomial, Finset.sum_ite_eq', Finset.mem_range]
  split
  · rfl
  · rename_i h
    rw [coeff, List.getD_eq_default _ _ (Nat.le_of_not_lt h), Nat.cast_zero]

/-- A polynomial with a list whose slot `i` is not 0 in Z/p is not the zero polynomial. -/
theorem Represents.ne_zero {p : Nat} {a : Poly} {A : Polynomial (ZMod p)} (h : Represents p a A) (i : Nat)
    (hi : (coeff a i : ZMod p) ≠ 0) : A ≠ 0 := by
  rintro rfl
  exact hi (by rw [← h i]; simp)

end Sys2Proof.Machine
end

