-- ==== Sys2Proof/Laws/Poly.lean ====
section
/-! SUPPORT. The polynomial functions of Sys2Proof/Machine/Poly.lean slot by slot, and the loop of long division. -/

namespace Sys2Proof.Machine

open Polynomial

/-! ### Slots -/

@[simp] theorem coeff_nil (i : Nat) : coeff [] i = 0 := rfl
@[simp] theorem coeff_cons_zero (c : Nat) (cs : Poly) : coeff (c :: cs) 0 = c := rfl
@[simp] theorem coeff_cons_succ (c : Nat) (cs : Poly) (i : Nat) : coeff (c :: cs) (i + 1) = coeff cs i := rfl

theorem coeff_of_length_le {a : Poly} {i : Nat} (h : a.length ≤ i) : coeff a i = 0 := by
  rw [coeff, List.getD_eq_default _ _ h]

@[simp] theorem coeff_trim (a : Poly) (i : Nat) : coeff (trim a) i = coeff a i := by
  induction a generalizing i with
  | nil => rfl
  | cons c cs ih =>
    rw [trim]
    split
    · rename_i h
      have hz : ∀ j, coeff cs j = 0 := fun j => by rw [← ih j, h]; rfl
      split
      · cases i <;> simp_all
      · cases i <;> simp_all
    · rename_i d ds h
      cases i with
      | zero => rfl
      | succ j => rw [coeff_cons_succ, coeff_cons_succ, ← ih j, h]

/-- A trimmed polynomial that is not empty has a nonzero last slot. -/
theorem trim_getLast (a : Poly) (h : trim a ≠ []) : (trim a).getLastD 0 ≠ 0 := by
  induction a with
  | nil => exact absurd rfl h
  | cons c cs ih =>
    rw [trim] at h ⊢
    split
    · rename_i hcs
      rw [hcs] at h
      split
      · rename_i hc; simp [hc] at h
      · simpa using ‹_›
    · rename_i d ds hcs
      rw [hcs] at ih
      simpa [List.getLastD] using ih (by simp)

theorem length_trim_le (a : Poly) : (trim a).length ≤ a.length := by
  induction a with
  | nil => exact Nat.le_refl _
  | cons c cs ih =>
    rw [trim]
    split
    · split <;> simp
    · rename_i d ds h
      rw [h] at ih
      simpa using ih

theorem lc_eq_coeff (a : Poly) : lc a = coeff a ((trim a).length - 1) := by
  rw [lc, ← coeff_trim, coeff]
  cases h : trim a with
  | nil => rfl
  | cons d ds => simp [List.getLastD_eq_getLast?, List.getLast?_eq_getElem?]

/-- A trimmed length is the least bound of the nonzero slots. -/
theorem length_trim_le_iff (a : Poly) (n : Nat) : (trim a).length ≤ n ↔ ∀ i, n ≤ i → coeff a i = 0 := by
  constructor
  · intro h i hi
    rw [← coeff_trim]
    exact coeff_of_length_le (h.trans hi)
  · intro h
    by_contra hn
    have hne : trim a ≠ [] := fun he => hn (by simp [he])
    have := trim_getLast a hne
    rw [← lc, lc_eq_coeff] at this
    exact this (h _ (by omega))

theorem coeff_map (g : Nat → Nat) (h : g 0 = 0) (a : Poly) (i : Nat) : coeff (a.map g) i = g (coeff a i) := by
  induction a generalizing i with
  | nil => simpa using h.symm
  | cons c cs ih =>
    cases i with
    | zero => rfl
    | succ j => exact ih j

theorem coeff_zipPad (g : Nat → Nat → Nat) (h : g 0 0 = 0) (a b : Poly) (i : Nat) :
    coeff (zipPad g a b) i = g (coeff a i) (coeff b i) := by
  induction a generalizing b i with
  | nil => rw [zipPad, coeff_map _ h]; rfl
  | cons c cs ih =>
    cases b with
    | nil => rw [zipPad, coeff_map (fun x => g x 0) h, coeff_nil]; simp
    | cons d ds =>
      cases i with
      | zero => rfl
      | succ j => exact ih ds j

@[simp] theorem coeff_padd (p : Nat) (a b : Poly) (i : Nat) : coeff (padd p a b) i = addp p (coeff a i) (coeff b i) := by
  rw [padd, coeff_trim, coeff_zipPad _ (by simp [addp])]

@[simp] theorem coeff_psub (p : Nat) (a b : Poly) (i : Nat) : coeff (psub p a b) i = subp p (coeff a i) (coeff b i) := by
  rw [psub, coeff_trim, coeff_zipPad _ (by simp [subp])]

@[simp] theorem coeff_pneg (p : Nat) (a : Poly) (i : Nat) : coeff (pneg p a) i = negp p (coeff a i) := by
  rw [pneg, coeff_trim, coeff_map _ (by simp [negp])]

@[simp] theorem coeff_pscale (p c : Nat) (a : Poly) (i : Nat) : coeff (pscale p c a) i = mulp p c (coeff a i) := by
  rw [pscale, coeff_trim, coeff_map _ (by simp [mulp])]

theorem coeff_pshift (s : Nat) (a : Poly) (i : Nat) : coeff (pshift s a) i = if i < s then 0 else coeff a (i - s) := by
  rw [pshift]
  induction s generalizing i with
  | zero => simp
  | succ n ih =>
    cases i with
    | zero => simp [List.replicate_succ]
    | succ j => rw [List.replicate_succ, List.cons_append, coeff_cons_succ, ih]; simp

/-! ### Values in Z/p -/

theorem cast_addp (p a b : Nat) : (addp p a b : ZMod p) = a + b := by simp [addp]

theorem cast_mulp (p a b : Nat) : (mulp p a b : ZMod p) = a * b := by simp [mulp]

theorem cast_subp {p : Nat} (hp : 0 < p) (a b : Nat) : (subp p a b : ZMod p) = a - b := by
  have h : ((subp p a b : Nat) : Int) = ((a : Int) - b) % p :=
    Int.toNat_of_nonneg (Int.emod_nonneg _ (by omega))
  have := congrArg (Int.cast : Int → ZMod p) h
  simpa using this

theorem cast_negp {p : Nat} (hp : 0 < p) (a : Nat) : (negp p a : ZMod p) = -a := by
  have h : ((negp p a : Nat) : Int) = ((p : Int) - a) % p :=
    Int.toNat_of_nonneg (Int.emod_nonneg _ (by omega))
  have := congrArg (Int.cast : Int → ZMod p) h
  simpa using this

/-! ### What a list stands for -/

theorem Represents.trim {p : Nat} {a : Poly} {A : (ZMod p)[X]} (h : Represents p a A) : Represents p (Machine.trim a) A :=
  fun i => by rw [coeff_trim]; exact h i

theorem Represents.shift {p : Nat} {a : Poly} {A : (ZMod p)[X]} (h : Represents p a A) (s : Nat) :
    Represents p (pshift s a) (X ^ s * A) := fun i => by
  rw [coeff_pshift, Polynomial.coeff_X_pow_mul']
  split <;> split <;> first | omega | simp | exact h _

theorem Represents.unique {p : Nat} {a : Poly} {A B : (ZMod p)[X]} (hA : Represents p a A) (hB : Represents p a B) : A = B :=
  Polynomial.ext fun i => (hA i).trans (hB i).symm

/-- A canonical list stands for 0 exactly if every slot is 0. -/
theorem Represents.eq_zero_iff {p : Nat} {a : Poly} {A : (ZMod p)[X]} (h : Represents p a A) (hc : Canonical p a) :
    A = 0 ↔ Machine.trim a = [] := by
  rw [← List.length_eq_zero_iff, ← Nat.le_zero, length_trim_le_iff]
  constructor
  · rintro rfl i -
    have hi := h i
    rw [Polynomial.coeff_zero] at hi
    by_cases hl : i < a.length
    · have hlt : coeff a i < p := hc _ (by rw [coeff, List.getD_eq_getElem _ _ hl]; exact List.getElem_mem _)
      exact Nat.eq_zero_of_dvd_of_lt ((ZMod.natCast_eq_zero_iff _ _).1 hi.symm) hlt
    · exact coeff_of_length_le (by omega)
  · intro hz
    ext i
    rw [h i, hz i (Nat.zero_le _)]
    simp

theorem Represents.natDegree_lt {p : Nat} {a : Poly} {A : (ZMod p)[X]} (h : Represents p a A) {n : Nat}
    (hn : ∀ i, n ≤ i → coeff a i = 0) : A.degree < n := by
  rw [Polynomial.degree_lt_iff_coeff_zero]
  intro i hi
  rw [h i, hn i (by exact_mod_cast hi)]
  simp

/-! ### Canonical results -/

theorem Canonical.of_coeff {p : Nat} {a : Poly} (h : ∀ i, coeff a i < p) : Canonical p a := by
  intro c hc
  obtain ⟨i, hi, rfl⟩ := List.getElem_of_mem hc
  have := h i
  rwa [coeff, List.getD_eq_getElem _ _ hi] at this

theorem Canonical.coeff_lt {p : Nat} (hp : 0 < p) {a : Poly} (h : Canonical p a) (i : Nat) : coeff a i < p := by
  by_cases hl : i < a.length
  · exact h _ (by rw [coeff, List.getD_eq_getElem _ _ hl]; exact List.getElem_mem _)
  · rw [coeff_of_length_le (by omega)]; exact hp

/-- A slot below p whose value in Z/p is 0 is 0. -/
theorem eq_zero_of_cast {p x : Nat} (hx : x < p) (h : (x : ZMod p) = 0) : x = 0 :=
  Nat.eq_zero_of_dvd_of_lt ((ZMod.natCast_eq_zero_iff _ _).1 h) hx

/-! ### Long division -/

/-- The loop of R194 for a divisor whose coefficient at its degree `db` has the inverse `il`, for any modulus: what
quotient and remainder stand for, and that no slot from `db` up is left in the remainder. -/
theorem divLoop_spec {p : Nat} (hp : 0 < p) {b : Poly} {B : (ZMod p)[X]} {il db : Nat} (hb : Represents p b B)
    (hdb : ∀ i, db < i → coeff b i = 0) (hil : (coeff b db : ZMod p) * il = 1) (n : Nat) :
    ∀ (q r : Poly) (Q R : (ZMod p)[X]), Represents p q Q → Represents p r R → Canonical p q → Canonical p r →
      (∀ i, n + db ≤ i → coeff r i = 0) →
      ∃ Q' R' : (ZMod p)[X], Represents p (divLoop p b il db n q r).1 Q' ∧ Represents p (divLoop p b il db n q r).2 R' ∧
        Canonical p (divLoop p b il db n q r).1 ∧ Canonical p (divLoop p b il db n q r).2 ∧
        Q' * B + R' = X ^ n * Q * B + R ∧ ∀ i, db ≤ i → coeff (divLoop p b il db n q r).2 i = 0 := by
  induction n with
  | zero =>
    intro q r Q R hq hr cq cr hz
    exact ⟨Q, R, hq, hr, cq, cr, by simp, fun i hi => hz i (by omega)⟩
  | succ s ih =>
    intro q r Q R hq hr cq cr hz
    rw [divLoop]
    have hc : mulp p (coeff r (s + db)) il < p := mulp_lt hp _ _
    have hcc : (mulp p (coeff r (s + db)) il : ZMod p) = coeff r (s + db) * il := cast_mulp _ _ _
    generalize mulp p (coeff r (s + db)) il = c at hc hcc
    have hq' : Represents p (c :: q) (C (c : ZMod p) + X * Q) := fun i => by
      cases i with
      | zero => simp
      | succ j => simpa [Polynomial.coeff_C] using hq j
    have hr' : Represents p (psub p r (pshift s (pscale p c b))) (R - X ^ s * (C (c : ZMod p) * B)) := fun i => by
      have hs : Represents p (pshift s (pscale p c b)) (X ^ s * (C (c : ZMod p) * B)) :=
        Represents.shift (fun j => by rw [Polynomial.coeff_C_mul, hb j, coeff_pscale, cast_mulp]) s
      rw [Polynomial.coeff_sub, hr i, hs i, coeff_psub, cast_subp hp]
    have cq' : Canonical p (c :: q) := fun x hx => by
      rcases List.mem_cons.1 hx with rfl | hx
      · exact hc
      · exact cq x hx
    have cr' : Canonical p (psub p r (pshift s (pscale p c b))) :=
      Canonical.of_coeff fun i => by rw [coeff_psub]; exact subp_lt hp _ _
    have hz' : ∀ i, s + db ≤ i → coeff (psub p r (pshift s (pscale p c b))) i = 0 := fun i hi => by
      rw [coeff_psub, coeff_pshift, if_neg (by omega), coeff_pscale]
      rcases Nat.eq_or_lt_of_le hi with rfl | hlt
      · refine eq_zero_of_cast (subp_lt hp _ _) ?_
        rw [cast_subp hp, cast_mulp, hcc, Nat.add_sub_cancel_left, mul_assoc, mul_comm (il : ZMod p), hil, mul_one, sub_self]
      · rw [hz i (by omega), hdb (i - s) (by omega)]
        simp [mulp, subp]
    obtain ⟨Q', R', h1, h2, h3, h4, h5, h6⟩ := ih _ _ _ _ hq' hr' cq' cr' hz'
    exact ⟨Q', R', h1, h2, h3, h4, by rw [h5]; ring, h6⟩

end Sys2Proof.Machine
end

