-- ==== Sys2Proof/Laws/Words.lean ====
section
/-! SUPPORT. The words of wide registers, bit by bit, and the read-after-write laws of R88 and R45. -/

namespace Sys2Proof.Machine

/-- Bit `n` of word `i` is bit 32i+n of the register (R88). -/
theorem getLsbD_getWord (v : FieldWord) (i : Fin 4) (n : Nat) :
    (getWord v i).getLsbD n = (decide (n < 32) && v.getLsbD (32 * i.val + n)) := by
  simp [getWord, BitVec.getLsbD_extractLsb']

/-- The bits of a register of which word `i` was written (R88). -/
theorem getLsbD_setWord (v : FieldWord) (i : Fin 4) (w : Word) (n : Nat) :
    (setWord v i w).getLsbD n = if n / 32 = i.val then w.getLsbD (n % 32) else v.getLsbD n := by
  have hi := i.isLt
  by_cases hn : n < 128
  · simp only [setWord, BitVec.getLsbD_or, BitVec.getLsbD_and, BitVec.getLsbD_not, BitVec.getLsbD_shiftLeft,
      BitVec.getLsbD_setWidth, BitVec.getLsbD_allOnes, hn, decide_true, Bool.true_and]
    split
    · have h1 : ¬ n < 32 * i.val := by omega
      have h2 : n - 32 * i.val = n % 32 := by omega
      have h3 : n % 32 < 128 := by omega
      simp [h1, h2, h3, Nat.mod_lt]
    · by_cases h1 : n < 32 * i.val
      · simp [h1]
      · have h2 : ¬ n - 32 * i.val < 32 := by omega
        have h3 : w.getLsbD (n - 32 * i.val) = false := BitVec.getLsbD_of_ge _ _ (by omega)
        simp [h1, h2, h3]
  · rw [BitVec.getLsbD_of_ge _ _ (by omega), if_neg (by omega), BitVec.getLsbD_of_ge _ _ (by omega)]

/-- A word reads back as it was written, and the other words as before (R88). -/
theorem getWord_setWord (v : FieldWord) (i j : Fin 4) (w : Word) :
    getWord (setWord v i w) j = if j = i then w else getWord v j := by
  apply BitVec.eq_of_getLsbD_eq
  intro n hn
  rw [getLsbD_getWord, getLsbD_setWord]
  have hd : (32 * j.val + n) / 32 = j.val := by omega
  have hm : (32 * j.val + n) % 32 = n := by omega
  rw [hd, hm]
  by_cases h : j = i
  · simp [h, hn]
  · have h' : ¬ j.val = i.val := fun e => h (Fin.ext e)
    rw [if_neg h', if_neg h, getLsbD_getWord]

/-- Two registers with the same four words are equal (R88). -/
theorem eq_of_getWord_eq {v v' : FieldWord} (h : ∀ i, getWord v i = getWord v' i) : v = v' := by
  apply BitVec.eq_of_getLsbD_eq
  intro n hn
  have hw := congrArg (fun w : Word => w.getLsbD (n % 32)) (h ⟨n / 32, by omega⟩)
  simp only [getLsbD_getWord, Nat.mod_lt _ (by omega : 32 > 0), decide_true, Bool.true_and, Nat.div_add_mod] at hw
  exact hw

/-- The implemented positions of K are those below KBITS (R45). -/
theorem getLsbD_scalarMask (kbits n : Nat) : (scalarMask kbits).getLsbD n = (decide (n < 256) && decide (n < kbits)) := by
  simp [scalarMask, BitVec.getLsbD_ofNat, Nat.testBit_two_pow_sub_one]

/-- The bits of K after a write of its word `i`: bit j of the data at position 32i+j where that is below KBITS
(R45). -/
theorem getLsbD_setScalarWord (kbits : Nat) (k : ScalarWord) (i : Fin 8) (w : Word) (n : Nat) (hk : kbits ≤ 256) :
    (setScalarWord kbits k i w).getLsbD n =
      if n / 32 = i.val ∧ n < kbits then w.getLsbD (n % 32) else k.getLsbD n := by
  have hi := i.isLt
  by_cases hn : n < 256
  · simp only [setScalarWord, BitVec.getLsbD_or, BitVec.getLsbD_and, BitVec.getLsbD_not, BitVec.getLsbD_shiftLeft,
      BitVec.getLsbD_setWidth, BitVec.getLsbD_allOnes, getLsbD_scalarMask, hn, decide_true, Bool.true_and]
    by_cases h1 : n < 32 * i.val
    · have h2 : ¬ n / 32 = i.val := by omega
      simp [h1, h2]
    · by_cases h2 : n - 32 * i.val < 32
      · have h3 : n / 32 = i.val := by omega
        have h4 : n - 32 * i.val = n % 32 := by omega
        have h5 : n - 32 * i.val < 256 := by omega
        by_cases h6 : n < kbits
        · simp [h1, h2, h3, h5, h6, ← h4]
        · simp [h6]
      · have h3 : ¬ n / 32 = i.val := by omega
        simp [h2, h3]
  · rw [BitVec.getLsbD_of_ge _ _ (by omega), if_neg (by omega), BitVec.getLsbD_of_ge _ _ (by omega)]

end Sys2Proof.Machine
end

