-- ==== Sys2Proof/Tests/Slice0.lean ====
section
/-! SUPPORT. Tests of the model and witnesses for the hypotheses of the obligations. The expected values are those of
95_test_vectors.md, whose vector is named in each docstring, or words written out from the encoding of R110 and R113. -/

namespace Sys2Proof.Tests

open Sys2Proof.Machine Sys2Proof.Machine.HostAsm

-- One theorem after the other: each kernel evaluation waiting in a thread of its own takes too many threads.
set_option Elab.async false

/-! ### Helpers -/

/-- The curve of T1: p = 13, f = (1, 2, 0, 3, 0, 1), h = 0. -/
def curve1 : CurveParams := { CurveParams.zero with p := 13, f0 := 1, f1 := 2, f3 := 3, f5 := 1 }

/-- The curve of T2: T1 with h = x. -/
def curve2 : CurveParams := { curve1 with h1 := 1 }

/-- An idle core after INIT, KBITS = 8. -/
def ready (c : CurveParams) : State := { State.reset with kbitsM1 := 7, params := c, prm := true }

/-- The same core before INIT. -/
def staged (c : CurveParams) : State := { State.reset with kbitsM1 := 7, params := c }

/-- `ready` on T1 with the field operands loaded. -/
def field (a b : FieldWord) : State := { ready curve1 with fa := a, fb := b }

/-- A divisor in register form, `(u0, u1, u2; v0, v1; du, dv)`. -/
def divisor (u0 u1 u2 v0 v1 : FieldWord) (du dv : Word) : DivRegs := ⟨u0, u1, u2, v0, v1, du, dv⟩

def idDiv : DivRegs := divisor 1 0 0 0 0 0 0xFFFFFFFF
def p0 : DivRegs := divisor 0 1 0 1 0 1 0
def p1 : DivRegs := divisor 11 1 0 3 0 1 0
def da : DivRegs := divisor 0 11 1 1 1 2 1
def ea : DivRegs := divisor 0 12 1 1 3 2 1
/-- Bad structure: du = 3. -/
def sx : DivRegs := divisor 0 11 1 1 1 3 1
/-- Off the curve T1. -/
def qx : DivRegs := divisor 0 1 0 2 0 1 0

/-- `ready` with the operand sets loaded. -/
def group (c : CurveParams) (A B : DivRegs) : State := { ready c with a := A, b := B }

/-- `group` with CHKEN and HOOKEN set. -/
def checked (c : CurveParams) (A B : DivRegs) : State := { group c A B with chken := true, hooken := true }

/-- The state that a step answers. -/
def next (s : State) : State :=
  match step s with
  | .next t => t
  | .fault _ => s
  | .refused _ => s

/-- Accept a command word and take one step, in which the sequencer completes it. -/
def after (cw : Word) (s : State) : State := next (accept cw s)

/-- A core with a command word accepted and not yet completed. -/
def busyWith (cw : Word) (s : State) : State := accept cw s

/-! ### WellFormed: each check refuses an ill-formed term -/

theorem test_reserved_bits_refused : commandWordWellFormed 0x00000110 = false := by decide
theorem test_top_reserved_bit_refused : commandWordWellFormed 0x80000010 = false := by decide
theorem test_unassigned_opcode_refused : commandWordWellFormed 0x00000041 = false := by decide
theorem test_zero_word_refused : commandWordWellFormed 0x00000000 = false := by decide
theorem test_assigned_word_accepted : commandWordWellFormed 0x00000040 = true := by decide
theorem test_narrow_access_refused : Txn.wellFormed ⟨.read, 0x100, .half, 0⟩ = false := by decide
theorem test_misaligned_access_refused : Txn.wellFormed ⟨.read, 0x002, .word, 0⟩ = false := by decide
theorem test_word_access_accepted : Txn.wellFormed ⟨.write, 0x100, .word, 5⟩ = true := by decide
theorem test_commands_well_formed : Instr.all.all Instr.wellFormed = true := by decide

/-! ### Decoding: the words of R113, bit by bit -/

theorem test_decode_init : decode 0b00000000000000000000000000000001 = .ok .init := by decide
theorem test_decode_fadd : decode 0b00000000000000000000000000010000 = .ok .fadd := by decide
theorem test_decode_fsub : decode 0b00000000000000000000000000010001 = .ok .fsub := by decide
theorem test_decode_fmul : decode 0b00000000000000000000000000010010 = .ok .fmul := by decide
theorem test_decode_fneg : decode 0b00000000000000000000000000010011 = .ok .fneg := by decide
theorem test_decode_finv : decode 0b00000000000000000000000000010100 = .ok .finv := by decide
theorem test_decode_fsel : decode 0b00000000000000000000000000010101 = .ok .fsel := by decide
theorem test_decode_movfa : decode 0b00000000000000000000000000011000 = .ok .movfa := by decide
theorem test_decode_movfb : decode 0b00000000000000000000000000011001 = .ok .movfb := by decide
theorem test_decode_did : decode 0b00000000000000000000000000100000 = .ok .did := by decide
theorem test_decode_dchk : decode 0b00000000000000000000000000100001 = .ok .dchk := by decide
theorem test_decode_dnorm : decode 0b00000000000000000000000000100010 = .ok .dnorm := by decide
theorem test_decode_movra : decode 0b00000000000000000000000000101000 = .ok .movra := by decide
theorem test_decode_movrb : decode 0b00000000000000000000000000101001 = .ok .movrb := by decide
theorem test_decode_dadd : decode 0b00000000000000000000000000110000 = .ok .dadd := by decide
theorem test_decode_ddbl : decode 0b00000000000000000000000000110001 = .ok .ddbl := by decide
theorem test_decode_dsmul : decode 0b00000000000000000000000001000000 = .ok .dsmul := by decide
theorem test_decode_unassigned_gap : decode 0b00000000000000000000000000010110 = .error .unassignedOpcode := by decide
theorem test_decode_reserved_bit_8 : decode 0b00000000000000000000000100010000 = .error .reservedBits := by decide
theorem test_decodeTableWord : decodeTableWord 32 0x40 = some .dsmul ∧ decodeTableWord 32 0x41 = none := by decide

/-! ### Control -/

/-- Vector I1. -/
theorem test_init : (after 0x01 (staged curve1)).statusWord = 0x00010012 := by decide +kernel
/-- Vectors I2, I3. -/
theorem test_init_faults : (after 0x01 (ready curve1)).statusWord = 0x00010314 ∧
    (after 0x01 (staged { curve1 with p := 12 })).statusWord = 0x00010404 := by decide +kernel
/-- Vectors I12, I13, I14. -/
theorem test_illegal_words : (after 0x00 (staged curve1)).statusWord = 0x00000104 ∧
    (after 0x110 (staged curve1)).statusWord = 0x00100104 ∧
    (after 0x41 (staged curve1)).statusWord = 0x00410104 := by decide +kernel
/-- Vectors I15, I16, on the state of I12. -/
theorem test_fault_state : memWrite 0x008 0x20 (after 0x00 State.reset) = after 0x00 State.reset ∧
    memWrite 0x004 0x80000000 (after 0x00 State.reset) = State.reset := by decide +kernel
/-- The first step after reset runs the word that the host places: FADD faults NO_PARAMS (vector I11). -/
theorem test_withFetchWord : (next (State.reset.withFetchWord 32 0x10)).statusWord = 0x00100204 := by decide +kernel

/-! ### Field unit (vectors F1 to F20 and M1 to M9) -/

theorem test_fadd_wraps : (after 0x10 (field 12 1)).fr = 0 ∧ (after 0x10 (field 7 9)).fr = 3 := by decide +kernel
theorem test_fadd_range : (after 0x10 (field 13 0)).statusWord = 0x00100514 := by decide +kernel
theorem test_fsub_borrows : (after 0x11 (field 3 5)).fr = 11 ∧ (after 0x11 (field 0 1)).fr = 12 := by decide +kernel
theorem test_fmul : (after 0x12 (field 7 8)).fr = 4 ∧ (after 0x12 (field 12 12)).fr = 1 := by decide +kernel
/-- Vector M5. -/
theorem test_fmul_full_width : (after 0x12 { field 0x0123456789abcdef0fedcba987654321 0x7edcba9876543210f0123456789abcde with
    params := { curve1 with p := 0x7fffffffffffffffffffffffffffffff } }).fr = 0x3ab8d35fb32304ad798cd101db1875ac := by
  decide +kernel
theorem test_fneg : (after 0x13 (field 5 99)).fr = 8 ∧ (after 0x13 (field 0 99)).fr = 0 := by decide +kernel
theorem test_finv : (after 0x14 (field 2 99)).fr = 7 ∧ (after 0x14 (field 0 99)).fr = 0 := by decide +kernel
/-- Vector M11. -/
theorem test_finv_full_width : (after 0x14 { field 0x0123456789abcdef0fedcba987654321 0 with
    params := { curve1 with p := 0x7fffffffffffffffffffffffffffffff } }).fr = 0x2cfefe6eb41053969967bd711c5169fc := by
  decide +kernel
theorem test_fsel : (after 0x15 (field 3 9)).fr = 3 ∧ (after 0x15 { field 3 9 with sel := true }).fr = 9 := by
  decide +kernel
theorem test_fsel_checks_both : (after 0x15 (field 3 13)).fcode = .range := by decide +kernel
theorem test_movfa : (after 0x18 { field 3 9 with fr := 7 }).fa = 7 := by decide +kernel
theorem test_movfb : (after 0x19 { field 3 9 with fr := 7 }).fb = 7 := by decide +kernel

/-! ### Divisor unit (vectors V1 to V14, N1 to N8, X1, X2) -/

theorem test_did : (after 0x20 (staged curve1)).r = idDiv := by decide +kernel
theorem test_dchk_accepts : (after 0x21 (group curve1 da da)).chk = true ∧
    (after 0x21 (group curve1 (divisor 7 1 0 0 0 1 0xFFFFFFFF) da)).chk = true := by decide +kernel
theorem test_dchk_rejects :
    [qx, sx, divisor 0 11 1 1 1 2 2, divisor 0 9 2 1 1 2 1, divisor 0 1 0 1 0 1 1, divisor 13 1 0 1 0 1 0,
      divisor 7 1 0 0 0 1 0, divisor 0 1 5 1 0 1 0].all (fun D => !(after 0x21 (group curve1 D da)).chk) = true := by
  decide +kernel
theorem test_dnorm : (after 0x22 (group curve1 (divisor 4 2 0 3 5 1 1) da)).r = divisor 2 1 0 6 0 1 0 ∧
    (after 0x22 (group curve1 (divisor 5 0 0 7 0 0 0) da)).r = idDiv := by decide +kernel
theorem test_dnorm_bad_divisor : (after 0x22 (group curve1 DivRegs.zero da)).fcode = .badDivisor := by decide +kernel
theorem test_movra : (after 0x28 { group curve1 p0 p1 with r := da }).a = da := by decide +kernel
theorem test_movrb : (after 0x29 { group curve1 p0 p1 with r := da }).b = da := by decide +kernel

/-! ### Groups (vectors G8, G15, H8, C1 to C8, K2, K4, L2) -/

theorem test_dadd_reduces : (after 0x30 (group curve1 da (divisor 7 4 1 3 10 2 1))).r = divisor 6 12 1 11 8 2 1 := by
  decide +kernel
/-- Vector H8: h = x. -/
theorem test_dadd_with_h : (after 0x30 (group curve2 ea (divisor 10 6 1 7 12 2 1))).r = divisor 4 12 1 2 12 2 1 := by
  decide +kernel
theorem test_ddbl_order_two : (after 0x31 (group curve1 (divisor 7 1 0 0 0 1 0xFFFFFFFF) sx)).r = idDiv := by
  decide +kernel
/-- Vectors C5, C3, C7. -/
theorem test_group_checks : (after 0x30 (checked curve1 qx sx)).fcode = .badDivisor ∧
    (after 0x30 (checked curve1 qx p0)).fcode = .notOnCurve ∧ (after 0x31 (checked curve1 qx p0)).fcode = .notOnCurve := by
  decide +kernel
/-- Vector K4, at KBITS = 2, where k = 3 is all ones. -/
theorem test_dsmul : (after 0x40 { group curve1 da da with kbitsM1 := 1, k := 3 }).r = divisor 0 4 1 12 5 2 1 := by
  decide +kernel
/-- Vector L2, at KBITS = 2: the leading zero bit of k = 1. -/
theorem test_dsmul_one : (after 0x40 { group curve2 ea da with kbitsM1 := 1, k := 1 }).r = ea := by decide +kernel

/-! ### Bus and registers (vectors B3, B5, B7, B9 to B15, K10) -/

theorem test_misaligned_read : (busAccess ⟨.read, 0x002, .word, 0⟩ State.reset).resps = [⟨.err, some 0⟩] := by decide +kernel
theorem test_reserved_offset : memWrite 0x0C0 0x12345678 State.reset = State.reset ∧ memRead 0x0C0 State.reset = 0 := by
  decide +kernel
theorem test_ctrl_reserved_bits : memRead 0x004 (memWrite 0x004 0x7FFFFFFF State.reset) = 7 := by decide +kernel
theorem test_fc_reserved_bits : memRead 0x130 (memWrite 0x130 0xFFFFFFFF State.reset) = 1 := by decide +kernel
theorem test_done_clears : (memWrite 0x00C 0x2 (after 0x01 (staged curve1))).statusWord = 0x00010010 := by decide +kernel
theorem test_write_while_busy : memWrite 0x100 5 (busyWith 0x20 (field 3 9)) = { busyWith 0x20 (field 3 9) with ovr := true } ∧
    memRead 0x120 (busyWith 0x20 { field 3 9 with fr := 7 }) = 0 := by decide +kernel
theorem test_scalar_width : (memWrite 0x500 0x1DC (ready curve1)).k = 0xDC := by decide +kernel

/-! ### Host assembly (R122) -/

/-- `wait` with two polls before the completion, and with none; a course that stops polling while BUSY, or polls on when
the core is idle, is none. -/
theorem test_wait_courses : isWait (busyWith 0x10 (field 7 9)) (wait 2) = true ∧
    isWait (busyWith 0x10 (field 7 9)) (wait 0) = true ∧ isWait (field 7 9) [poll] = true ∧
    isWait (busyWith 0x10 (field 7 9)) [poll] = false ∧ isWait (field 7 9) [poll, poll] = false := by decide +kernel
/-- `run FADD` and `rdf FR -> NAME` (vector F2's operands, 7 + 9). -/
theorem test_run_and_rdf : isRun .fadd (field 7 9) (run .fadd 1) = true ∧
    rdfValue (answers (rdf .fr) (perform (run .fadd 1) (field 7 9))) = 3 := by decide +kernel
/-- `init` on the curve of T1 from reset, then `run DID` and `rdd R -> NAME` (vector I1, R235). -/
theorem test_init_and_rdd : (perform (init curve1 1) State.reset).statusWord = 0x00010012 ∧
    rddValue (answers rdd (perform (run .did 0) State.reset)) = idDiv := by decide +kernel

/-! ### Witnesses: states and operands that meet the hypotheses of the obligations, one for each clause -/

theorem witness_DecodeOfEncode : Instr.wellFormed .init = true ∧ Instr.wellFormed .dsmul = true := by decide

theorem witness_DecoderFollowsOpcodeMap :
    (0x100 : Word).toNat / 256 ≠ 0 ∧ ((0x41 : Word).toNat / 256 = 0 ∧ (0x41 : Word).toNat % 256 ∉ legalOpcodes) ∧
      ((0x40 : Word).toNat / 256 = 0 ∧ (0x40 : Word).toNat % 256 ∈ legalOpcodes) := by decide

/-- A command pending; none pending; a bus transaction next. -/
theorem witness_StepRunsPendingCommand :
    (let s := busyWith 0x40 (ready curve1)
     s.pending = some ⟨0x40, false, false⟩ ∧ decode 0x40 = .ok .dsmul ∧ Instr.wellFormed .dsmul = true ∧ s.env = [] ∧
       ({ s with env := [.sequencer] } : State).env = .sequencer :: []) ∧
    ((ready curve1).pending = none ∧ (ready curve1).env = [] ∧
       ({ ready curve1 with env := [.sequencer] } : State).env = .sequencer :: []) ∧
    ({ ready curve1 with env := [rd 0x00C] } : State).env = .bus ⟨.read, 0x00C, .word, 0⟩ :: [] := by decide +kernel

/-- A command and an illegal word pending, with a poll and the sequencer's turn to come. -/
theorem witness_PendingCommandCompletes :
    (let s := { busyWith 0x10 (field 7 9) with env := [poll, .sequencer] }
     s.pending = some ⟨0x10, false, false⟩ ∧ .hardReset ∉ s.env ∧ decode 0x10 = .ok .fadd) ∧
    (let s := busyWith 0x41 (field 7 9)
     s.pending = some ⟨0x41, false, false⟩ ∧ .hardReset ∉ s.env ∧ decode 0x41 = .error .unassignedOpcode) := by
  decide +kernel

theorem witness_IllegalWordFaults :
    (busyWith 0x100 State.reset).pending = some ⟨0x100, false, false⟩ ∧ (0x100 : Word).toNat / 256 ≠ 0 ∧
    (busyWith 0x41 State.reset).pending = some ⟨0x41, false, false⟩ ∧ (0x41 : Word).toNat % 256 ∉ legalOpcodes ∧
    (busyWith 0x41 State.reset).env = [] := by decide +kernel

/-- PRM = 1; p = 1, just below the least legal modulus; p = 3, the least one (vector I8). -/
theorem witness_InitFollowsRule :
    (ready curve1).prm = true ∧
    ((staged { curve1 with p := 1 }).prm = false ∧ ¬ 3 ≤ (staged { curve1 with p := 1 }).params.p.toNat) ∧
    (let s := staged { CurveParams.zero with p := 3, f5 := 1 }
     let p := s.params.p.toNat
     s.prm = false ∧ p % 2 = 1 ∧ 3 ≤ p ∧ s.params.f5.toNat = 1 ∧ s.params.f0.toNat < p ∧ s.params.f1.toNat < p ∧
       s.params.f2.toNat < p ∧ s.params.f3.toNat < p ∧ s.params.f4.toNat < p ∧ s.params.h0.toNat < p ∧
       s.params.h1.toNat < p ∧ s.params.h2.toNat < p) := by decide +kernel

/-- FaddFollowsRule, FsubFollowsRule, FmulFollowsRule, FselFollowsRule: no parameters; FA = p; FB = p; both operands p - 1. -/
theorem witness_two_operand_field_rules :
    (staged curve1).prm = false ∧
    ((field 13 0).prm = true ∧ (field 13 0).p ≤ (field 13 0).fa.toNat) ∧
    ((field 0 13).prm = true ∧ (field 0 13).p ≤ (field 0 13).fb.toNat) ∧
    ((field 12 12).prm = true ∧ (field 12 12).fa.toNat < (field 12 12).p ∧ (field 12 12).fb.toNat < (field 12 12).p) := by
  decide +kernel

/-- FnegFollowsRule, FinvFollowsRule (with `prime_p`): no parameters; FA = p; FA = p - 1 and FA = 0, with FB out of range. -/
theorem witness_one_operand_field_rules :
    (staged curve1).prm = false ∧ ((field 13 0).prm = true ∧ (field 13 0).p ≤ (field 13 0).fa.toNat) ∧
    ((field 12 99).prm = true ∧ (field 12 99).fa.toNat < (field 12 99).p ∧ (field 12 99).fa.toNat ≠ 0) ∧
    ((field 0 99).prm = true ∧ (field 0 99).fa.toNat < (field 0 99).p) := by decide +kernel

theorem prime_p : (ready curve1).p.Prime := by
  show Nat.Prime 13
  norm_num

theorem not_prime_p : ¬ (ready { curve1 with p := 15 }).p.Prime := by
  show ¬ Nat.Prime 15
  norm_num

/-- The least modulus. -/
theorem witness_FieldFunctionsAreExact : 3 % 2 = 1 ∧ 3 ≤ 3 ∧ 3 < 2 ^ 128 ∧ 2 < 3 ∧ Nat.Prime 3 ∧ 2 ≠ 0 := by norm_num

theorem witness_DchkFollowsRule : (staged curve1).prm = false ∧ (group curve1 da da).prm = true := by decide +kernel

/-- No parameters; du = 3; a prime p; a p that is not prime (vector I9's modulus). -/
theorem witness_DnormFollowsRule :
    (staged curve1).prm = false ∧ normOK 13 sx = false ∧ (group curve1 sx sx).prm = true ∧
    normOK 13 (divisor 4 2 0 3 5 1 1) = true ∧ (ready curve1).p.Prime ∧
    normOK 15 (divisor 4 2 0 3 5 1 1) = true ∧ ¬ (ready { curve1 with p := 15 }).p.Prime :=
  ⟨by decide +kernel, by decide +kernel, by decide +kernel, by decide +kernel, prime_p, by decide +kernel, not_prime_p⟩

theorem witness_MemberMeansDivisibility : ∃ F H U V : Polynomial (ZMod 13),
    13 % 2 = 1 ∧ 3 ≤ 13 ∧ 13 < 2 ^ 128 ∧ strictOK 13 da = true ∧ Canonical 13 curve1.f ∧ Canonical 13 curve1.h ∧
      Represents 13 curve1.f F ∧ Represents 13 curve1.h H ∧ Represents 13 da.u U ∧ Represents 13 da.v V := by
  obtain ⟨F, hF⟩ := exists_represents 13 curve1.f
  obtain ⟨H, hH⟩ := exists_represents 13 curve1.h
  obtain ⟨U, hU⟩ := exists_represents 13 da.u
  obtain ⟨V, hV⟩ := exists_represents 13 da.v
  exact ⟨F, H, U, V, by norm_num, by norm_num, by norm_num, by decide +kernel, by unfold Canonical; decide +kernel,
    by unfold Canonical; decide +kernel, hF, hH, hU, hV⟩

theorem witness_DnormResultIsStrictOK : ∃ t : State, (group curve1 (divisor 4 2 0 3 5 1 1) da).prm = true ∧
    (group curve1 (divisor 4 2 0 3 5 1 1) da).p.Prime ∧ normOK 13 (divisor 4 2 0 3 5 1 1) = true ∧
    exec .dnorm (group curve1 (divisor 4 2 0 3 5 1 1) da) = .next t :=
  ⟨_, rfl, prime_p, by decide +kernel, rfl⟩

theorem witness_DnormKeepsReducedDivisor : ∃ t : State, (group curve1 da p0).prm = true ∧ (group curve1 da p0).p.Prime ∧
    strictOK 13 da = true ∧ exec .dnorm (group curve1 da p0) = .next t :=
  ⟨_, rfl, prime_p, by decide +kernel, rfl⟩

/-- PolynomialOpsRepresent, DivisionWithRemainder, ExtendedGcdIsGcd: the polynomials x and x^2 + 11·x over Z/13. -/
theorem witness_polynomial_rules : ∃ A B : Polynomial (ZMod 13),
    0 < 13 ∧ Nat.Prime 13 ∧ 13 < 2 ^ 128 ∧ Canonical 13 [0, 1] ∧ Canonical 13 [0, 11, 1] ∧ Represents 13 [0, 1] A ∧
      Represents 13 [0, 11, 1] B ∧ B ≠ 0 ∧ ¬ (A = 0 ∧ B = 0) := by
  obtain ⟨A, hA⟩ := exists_represents 13 [0, 1]
  obtain ⟨B, hB⟩ := exists_represents 13 [0, 11, 1]
  have hB0 : B ≠ 0 := hB.ne_zero 2 (by decide)
  exact ⟨A, B, by norm_num, by norm_num, by norm_num, by unfold Canonical; decide, by unfold Canonical; decide, hA, hB,
    hB0, fun h => hB0 h.2⟩

theorem valid_group (A B : DivRegs) (hA : strictOK 13 A = true ∧ member 13 curve1.f curve1.h A = true)
    (hB : strictOK 13 B = true ∧ member 13 curve1.f curve1.h B = true) :
    (group curve1 A B).InValidDomain [A, B] ∧ (group curve1 A B).InValidDomain [A] := by
  have hn : nonsingular 13 curve1.f curve1.h = true := by decide +kernel
  refine ⟨⟨prime_p, hn, ?_⟩, ⟨prime_p, hn, ?_⟩⟩
  · intro D hD
    rcases List.mem_cons.1 hD with rfl | hD
    · exact hA
    · rcases List.mem_singleton.1 hD with rfl
      exact hB
  · intro D hD
    rcases List.mem_singleton.1 hD with rfl
    exact hA

theorem qx_off_curve : ¬ (group curve1 qx p0).InValidDomain [qx, p0] ∧ ¬ (group curve1 qx p0).InValidDomain [qx] := by
  have h : member 13 curve1.f curve1.h qx ≠ true := by decide +kernel
  exact ⟨fun hv => h (hv.2.2 qx (by simp)).2, fun hv => h (hv.2.2 qx (by simp)).2⟩

/-- DaddFollowsRule, DdblFollowsRule, DsmulFollowsRule: no parameters; du = 3 in A; CHKEN = 1 and A off the curve; the valid domain; A
off the curve with CHKEN = 0 (vectors C11, C10, C3, G1, C6). -/
theorem witness_group_rules :
    (staged curve1).prm = false ∧
    ((group curve1 sx p0).prm = true ∧ ¬ strictOK 13 sx = true) ∧
    ((checked curve1 qx p0).prm = true ∧ strictOK 13 qx = true ∧ strictOK 13 p0 = true ∧
      (checked curve1 qx p0).chkSnapshot = true ∧ ¬ member 13 curve1.f curve1.h qx = true) ∧
    ((group curve1 p0 p1).prm = true ∧ strictOK 13 p0 = true ∧ strictOK 13 p1 = true ∧
      (group curve1 p0 p1).InValidDomain [p0, p1] ∧ (group curve1 p0 p1).InValidDomain [p0]) ∧
    ((group curve1 qx p0).prm = true ∧ (group curve1 qx p0).chkSnapshot = false ∧
      ¬ (group curve1 qx p0).InValidDomain [qx, p0] ∧ ¬ (group curve1 qx p0).InValidDomain [qx]) := by
  have hv := valid_group p0 p1 (by decide +kernel) (by decide +kernel)
  have hq := qx_off_curve
  exact ⟨by decide +kernel, by decide +kernel, by decide +kernel, ⟨rfl, by decide +kernel, by decide +kernel, hv.1, hv.2⟩,
    rfl, rfl, hq.1, hq.2⟩

/-- CantorResultIsStrictOK and ScalarZeroGivesIdentity: two divisors on the curve (their composition has degree 4) and
one off it; the least width at which k = 1 fits. -/
theorem witness_CantorResultIsStrictOK :
    paramOK curve1 = true ∧ curve1.p.toNat.Prime ∧
      ([da, divisor 7 4 1 3 10 2 1, idDiv].all fun D =>
        strictOK 13 D && member 13 curve1.f curve1.h D) = true ∧
      2 < deg (compose 13 curve1.f curve1.h da.pair (divisor 7 4 1 3 10 2 1).pair).1 ∧
      deg (compose 13 curve1.f curve1.h idDiv.pair da.pair).1 = 2 ∧
      (strictOK 13 qx = true ∧ member 13 curve1.f curve1.h qx = false) ∧ 1 ≤ 1 :=
  ⟨by decide +kernel, prime_p, by decide +kernel, by decide +kernel, by decide +kernel, by decide +kernel, Nat.le_refl 1⟩

/-- The polynomials that CantorResultIsStrictOK speaks of. -/
theorem witness_CantorResult_polynomials : ∃ F H U1 V1 U2 V2 : Polynomial (ZMod curve1.p.toNat),
    Represents _ curve1.f F ∧ Represents _ curve1.h H ∧ Represents _ da.u U1 ∧ Represents _ da.v V1 ∧
      Represents _ idDiv.u U2 ∧ Represents _ idDiv.v V2 := by
  obtain ⟨F, hF⟩ := exists_represents curve1.p.toNat curve1.f
  obtain ⟨H, hH⟩ := exists_represents curve1.p.toNat curve1.h
  obtain ⟨U1, h1⟩ := exists_represents curve1.p.toNat da.u
  obtain ⟨V1, h2⟩ := exists_represents curve1.p.toNat da.v
  obtain ⟨U2, h3⟩ := exists_represents curve1.p.toNat idDiv.u
  obtain ⟨V2, h4⟩ := exists_represents curve1.p.toNat idDiv.v
  exact ⟨F, H, U1, V1, U2, V2, hF, hH, h1, h2, h3, h4⟩

/-- CmdWriteAccepts, CmdWriteTurnedAway, ResultsHiddenWhileBusy, FourWordsMakeRegister,
ScalarWriteStoresImplementedBits: ready; BUSY; in the fault state; idle (with PRM = 0). -/
theorem witness_acceptance : State.reset.Ready ∧ (busyWith 0x20 State.reset).busy = true ∧
    ((after 0x00 State.reset).busy = false ∧ (after 0x00 State.reset).fault = true) ∧
    (State.reset.busy = false ∧ State.reset.prm = false) := by
  decide +kernel

/-- The offsets on both sides of STATUS, and the last one of the window. -/
theorem witness_WriteWhileBusyIsDropped : ∀ off ∈ ([0x008, 0x010, 0xFFC] : List Offset),
    (busyWith 0x20 State.reset).busy = true ∧ off.toNat % 4 = 0 ∧ off ≠ 0x00C := by decide +kernel

theorem witness_ScalarIsNeverRead : 0x500 ≤ (0x500 : Offset).toNat ∧ (0x51C : Offset).toNat ≤ 0x51C := by decide

theorem witness_BadShapeAndReadsChangeNothing :
    (⟨.write, 0x100, .half, 5⟩ : Txn).size ≠ .word ∧ (⟨.write, 0xFFE, .word, 5⟩ : Txn).off.toNat % 4 ≠ 0 ∧
      (let t : Txn := ⟨.read, 0xFFC, .word, 0⟩
       t.size = .word ∧ t.off.toNat % 4 = 0 ∧ t.rw = .read) ∧
      (let t : Txn := ⟨.write, 0x000, .word, 5⟩
       t.size = .word ∧ t.off.toNat % 4 = 0 ∧ t.rw = .write) := by decide

theorem witness_AddressMapIsComplete :
    locate 0x000 = some .id ∧ locate 0x51C = some (.k 7) ∧ locate 0x018 = none ∧ locate 0x520 = none ∧ locate 0xFFC = none := by
  decide +kernel

theorem witness_ReadAfterWrite : (staged curve1).busy = false ∧ (staged curve1).prm = false ∧
    (DivSet.a ≠ .r ∧ DivSet.b ≠ .r) ∧ (0x104 : Offset).toNat % 4 = 0 ∧ (0x104 : Offset) ≠ offsetOf (.fa 0) := by
  decide +kernel

theorem witness_StagingAndFieldRegisterWrites :
    ((staged curve1).busy = false ∧ (staged curve1).prm = false) ∧ ((ready curve1).busy = false ∧ (ready curve1).prm = true) ∧
      ParamReg.f0 ≠ .p := by decide +kernel

theorem witness_CtrlWriteStoresThreeBits :
    State.reset.busy = false ∧ (0x7FFFFFFF : Word).getLsbD 31 = false := by decide +kernel

theorem witness_ResetLeavesZeroes : 0x004 ≤ (0x004 : Offset).toNat ∧ (0x004 : Offset).toNat ≠ 0x014 := by decide

theorem witness_SoftResetClearsCore : (0x80000000 : Word).getLsbD 31 = true ∧
    (after 0x00 State.reset).busy = false ∧ (busyWith 0x20 State.reset).busy = true := by decide +kernel

theorem witness_HardResetAbandonsCommand :
    let s : State := { State.reset with env := [.hardReset] }
    let t : State := { accept 0x30 (checked curve1 p0 p1) with env := [.hardReset] }
    s.env = .hardReset :: [] ∧ s.pending = none ∧ t.env = .hardReset :: [] ∧
      t.pending = some ⟨0x30, true, true⟩ ∧ decode 0x30 = .ok .dadd := by decide +kernel

/-- A state with a parameter set and a command pending that meets the invariant, and the step from it. -/
theorem witness_StepKeepsInvariant : ∃ t : State, (busyWith 0x10 (field 12 1)).Inv ∧
    step (busyWith 0x10 (field 12 1)) = .next t := ⟨_, by decide +kernel, rfl⟩

/-- CompletionWritesOnlyListed, InterruptAfterCompletion: a completion that faults and one that does not. -/
theorem witness_CompletionWritesOnlyListed : (∃ t : State, exec .fadd (field 13 0) = .next t) ∧
    (∃ t : State, exec .fadd (field 12 1) = .next t ∧ t.irq = (field 12 1).ie) := ⟨⟨_, rfl⟩, ⟨_, rfl, rfl⟩⟩

theorem witness_CountsAndHooksAreConstant : ∃ t1 t2 : State,
    (group curve1 p0 p1).kbits = (group curve1 da da).kbits ∧
    (group curve1 p0 p1).hookSnapshot = (group curve1 da da).hookSnapshot ∧
    (group curve1 p0 p1).fault = false ∧ (group curve1 da da).fault = false ∧
    exec .dadd (group curve1 p0 p1) = .next t1 ∧ exec .ddbl (group curve1 da da) = .next t2 ∧
    t1.fault = false ∧ t2.fault = false :=
  ⟨_, _, rfl, rfl, rfl, rfl, rfl, rfl, by decide +kernel, by decide +kernel⟩

/-- The same command twice, in two states. -/
theorem witness_CountsAndHooksAreConstant_same : ∃ t1 t2 : State,
    (field 3 9).kbits = (field 12 1).kbits ∧ (field 3 9).hookSnapshot = (field 12 1).hookSnapshot ∧
    (field 3 9).fault = false ∧ (field 12 1).fault = false ∧
    exec .fadd (field 3 9) = .next t1 ∧ exec .fadd (field 12 1) = .next t2 ∧ t1.fault = false ∧ t2.fault = false :=
  ⟨_, _, rfl, rfl, rfl, rfl, rfl, rfl, by decide +kernel, by decide +kernel⟩

theorem witness_FaultStateIsSticky : ∃ t : State, (after 0x00 State.reset).fault = true ∧
    (after 0x00 State.reset).busy = false ∧ step (after 0x00 State.reset) = .next t ∧
    ¬ (after 0x00 State.reset).ResetNext := by
  refine ⟨_, by decide +kernel, by decide +kernel, rfl, ?_⟩
  rintro (h | ⟨_, w, _, h⟩) <;> exact absurd h (by simp [after, next, step, sequencerTurn, accept, State.reset, decode, decodeOp, rsvdField, opField, completeIllegal, raiseFault])

/-- PRM = 1 with a FADD pending; PRM = 0 with an INIT pending. -/
theorem witness_ParametersAreImmutable :
    (∃ t : State, (busyWith 0x10 (field 12 1)).prm = true ∧ step (busyWith 0x10 (field 12 1)) = .next t ∧
      ¬ (busyWith 0x10 (field 12 1)).ResetNext) ∧
    (∃ t : State, (busyWith 0x01 (staged curve1)).prm = false ∧ step (busyWith 0x01 (staged curve1)) = .next t ∧
      t.prm = true) := by
  refine ⟨⟨_, rfl, rfl, ?_⟩, ⟨_, rfl, rfl, by decide +kernel⟩⟩
  rintro (h | ⟨h, _⟩)
  · exact absurd h (by decide +kernel)
  · exact absurd h (by decide +kernel)

theorem witness_ResultSetChangedOnlyByItsCommands : ∃ t : State, step (busyWith 0x20 State.reset) = .next t ∧
    t.r ≠ State.reset.r ∧ ¬ (busyWith 0x20 State.reset).ResetNext := by
  refine ⟨_, rfl, by decide +kernel, ?_⟩
  rintro (h | ⟨h, _⟩)
  · exact absurd h (by decide +kernel)
  · exact absurd h (by decide +kernel)

/-- OperationCountLaws at both ends of the range of KBITS. -/
theorem witness_OperationCountLaws : (1 ≤ 1 ∧ 1 ≤ 256) ∧ (1 ≤ 256 ∧ 256 ≤ 256) := by decide

theorem witness_HookSequences : Instr.init ∉ [Instr.dadd, .ddbl, .dsmul] := by decide

theorem witness_KbitsIsConstant : ∃ t : State, step State.reset = .next t := ⟨_, rfl⟩

/-- InterruptAfterCompletion, the STATUS write. -/
theorem witness_status_write : (0x00000002 : Word).getLsbD 1 = true := by decide

end Sys2Proof.Tests
end

/-! The statements about scope: no step stops the machine (R28), the field functions (R12), and what the latency, OPCNT
and the hook events depend on (R27). -/

namespace Sys2Proof.Machine

/-! ### No step stops the machine -/

/-- With nothing in the environment's list the sequencer moves (R149). -/
theorem step_of_env_nil {s : State} (h : s.env = []) : step s = sequencerTurn s := by
  simp [step, h]

/-- Settles O6, by cases on who moves next: the sequencer when the list is empty, and else the event at its head. -/
theorem stepAlwaysAnswersNext : Obligations.StepAlwaysAnswersNext := by
  intro s
  cases henv : s.env with
  | nil => exact ⟨HostAsm.turn s, (step_of_env_nil henv).trans (HostAsm.sequencerTurn_eq s)⟩
  | cons e es => exact ⟨HostAsm.happen { s with env := es } e, HostAsm.step_eq_happen henv⟩

/-! ### The field functions -/

/-- Subtraction is the integer remainder (R12). -/
theorem natCast_subp {p : Nat} (hp : 0 < p) (a b : Nat) : (subp p a b : Int) = ((a : Int) - b) % p :=
  Int.toNat_of_nonneg (Int.emod_nonneg _ (by omega))

/-- Negation of an operand in range needs no integers (R12). -/
theorem negp_eq {p a : Nat} (ha : a < p) : negp p a = (p - a) % p := by
  have hint : (negp p a : Int) = ((p : Int) - a) % p := natCast_subp (by omega) p a
  rw [← Nat.cast_sub ha.le] at hint
  exact_mod_cast hint

/-- Fermat's little theorem in the form of R165: for a prime p the power is the inverse. -/
theorem pow_sub_two_mod_mul_self_mod {p a : Nat} (hp : p.Prime) (ha0 : a ≠ 0) (ha : a < p) :
    a ^ (p - 2) % p * a % p = 1 := by
  have hcop : a.Coprime p := (Nat.coprime_of_lt_prime ha0 ha hp).symm
  calc a ^ (p - 2) % p * a % p
      = a ^ (p - 2) * a % p := Nat.mod_mul_mod ..
    _ = a ^ Nat.totient p % p := by
        rw [← pow_succ, Nat.totient_prime hp, show p - 2 + 1 = p - 1 by have := hp.two_le; omega]
    _ = 1 % p := Nat.ModEq.pow_totient hcop
    _ = 1 := Nat.mod_eq_of_lt hp.one_lt

/-- `invp(0) = 0` for a modulus of at least 3 (R12). -/
theorem invp_zero {p : Nat} (hp : 3 ≤ p) (hlt : p < 2 ^ 128) : invp p 0 = 0 := by
  rw [invp_eq p 0 hlt, zero_pow (by omega), Nat.zero_mod]

/-- `invp` is the inverse for a prime modulus (R12). -/
theorem mulp_invp_self {p a : Nat} (hp : p.Prime) (hlt : p < 2 ^ 128) (ha0 : a ≠ 0) (ha : a < p) :
    mulp p (invp p a) a = 1 := by
  rw [invp_eq p a hlt]
  exact pow_sub_two_mod_mul_self_mod hp ha0 ha

/-- Settles O16; that p is odd is not needed. -/
theorem fieldFunctionsAreExact : Obligations.FieldFunctionsAreExact := by
  intro p _ h3 hlt a b ha _
  have hpos : 0 < p := by omega
  exact ⟨rfl, natCast_subp hpos a b, rfl, negp_eq ha, invp_eq p a hlt, invp_zero h3 hlt,
    fun hprime ha0 => mulp_invp_self hprime hlt ha0 ha⟩

/-! ### Latency, OPCNT and hook events -/

@[simp] theorem effectOf_kbits (i : Instr) (s : State) : (effectOf i s).kbits = s.kbits := by
  rw [effectOf_frame]; rfl

@[simp] theorem effectOf_hooks (i : Instr) (s : State) : (effectOf i s).hooks = s.hooks := by
  rw [effectOf_frame]

@[simp] theorem effectOf_hookSnapshot (i : Instr) (s : State) : (effectOf i s).hookSnapshot = s.hookSnapshot := by
  rw [effectOf_frame]; rfl

/-- A command that leaves FAULT = 0 has performed its effect and finished (R147). -/
theorem eq_finish_of_exec {i : Instr} {s t : State} (h : exec i s = .next t) (hf : t.fault = false) :
    t = finish i (effectOf i s) := by
  rcases exec_cases h with ⟨code, -, rfl⟩ | ⟨-, ht⟩
  · simp at hf
  · exact ht

/-- OPCNT after a command that does not fault (R147, R327). -/
theorem opcnt_of_exec {i : Instr} {s t : State} (h : exec i s = .next t) (hf : t.fault = false) :
    t.opcnt = BitVec.ofNat 32 (nops s.kbits i) := by
  simp [eq_finish_of_exec h hf]

/-- The hook trace after a command that does not fault (R147, R331). -/
theorem hooks_of_exec {i : Instr} {s t : State} (h : exec i s = .next t) (hf : t.fault = false) :
    t.hooks = s.hooks ++ if s.hookSnapshot then hookSeq s.kbits i else [] := by
  rw [eq_finish_of_exec h hf]
  cases hs : s.hookSnapshot <;> simp [hs]

/-- Equal commands, or DADD against DDBL, have the same latency, count and hook sequence (R27). -/
theorem observables_eq {i j : Instr} (h : i = j ∨ (i = .dadd ∧ j = .ddbl)) (kbits : Nat) :
    latency kbits i = latency kbits j ∧ nops kbits i = nops kbits j ∧ hookSeq kbits i = hookSeq kbits j := by
  rcases h with rfl | ⟨rfl, rfl⟩ <;> exact ⟨rfl, rfl, rfl⟩

/-- Settles O53: all three are read off the opcode, KBITS and the HOOKEN snapshot. The two premises on
the states before are not needed: a command that finishes keeps FAULT. -/
theorem countsAndHooksAreConstant : Obligations.CountsAndHooksAreConstant := by
  intro i j s1 t1 s2 t2 hij hkbits hhook _ _ hexec1 hexec2 hfault1 hfault2
  obtain ⟨hlatency, hnops, hseq⟩ := observables_eq hij s2.kbits
  refine ⟨hkbits ▸ hlatency, ?_, _, hooks_of_exec hexec1 hfault1, ?_⟩
  · rw [opcnt_of_exec hexec1 hfault1, opcnt_of_exec hexec2 hfault2, hkbits, hnops]
  · rw [hooks_of_exec hexec2 hfault2, hkbits, hhook, hseq]

end Sys2Proof.Machine

/-! The statements about the state: the address map and what its registers read and store, the invariant, and what a
step can change. -/

namespace Sys2Proof.Machine

open HostAsm

/-! ### The address map -/

/-- The staging registers stand in the order of their offsets (R37). -/
theorem eq_paramIndex_of_paramAt {n : Nat} {q : ParamReg} (h : paramAt n = some q) : n = paramIndex q := by
  unfold paramAt at h
  split at h <;> cases h <;> rfl

/-- The coefficient registers of a set stand 16 bytes apart (R42). -/
theorem eq_coefOffset_of_coefAt {n : Nat} {c : Coef} (h : coefAt n = some c) : 16 * n = coefOffset c := by
  unfold coefAt at h
  split at h <;> cases h <;> rfl

/-- A word found below 0x100 is the one whose name stands for that offset (R31 to R37). -/
theorem offsetOf_of_controlWordAt {o : Nat} {g : RegWord} (ho : o % 4 = 0) (h : controlWordAt o = some g) :
    offsetOf g = BitVec.ofNat 12 o := by
  unfold controlWordAt at h
  split at h
  case h_7 =>
    split at h
    · cases h
    · obtain ⟨q, hq, rfl⟩ := Option.map_eq_some_iff.1 h
      have hindex := eq_paramIndex_of_paramAt hq
      have hword : (Fin.ofNat 4 (o / 4)).val = o / 4 % 4 := rfl
      rw [offsetOf]
      congr 1
      omega
  all_goals cases h; rfl

/-- A word found in the field unit is the one whose name stands for that offset (R40, R41). -/
theorem offsetOf_of_fieldWordAt {o : Nat} {g : RegWord} (ho : o % 4 = 0) (h : fieldWordAt o = some g) :
    offsetOf g = BitVec.ofNat 12 (0x100 + o) := by
  have hword : (Fin.ofNat 4 (o / 4)).val = o / 4 % 4 := rfl
  unfold fieldWordAt at h
  split at h
  case h_4 =>
    split at h
    · cases h
      subst o
      rfl
    · cases h
  case h_5 => cases h
  all_goals
    cases h
    rw [offsetOf]
    congr 1
    omega

/-- A word found in a divisor set is the one whose name stands for that offset (R42). -/
theorem offsetOf_of_divWordAt {S : DivSet} {o : Nat} {g : RegWord} (ho : o % 4 = 0) (h : divWordAt S o = some g) :
    offsetOf g = BitVec.ofNat 12 (divBase S + o) := by
  unfold divWordAt at h
  split at h
  · cases h
    subst o
    rfl
  split at h
  · cases h
    subst o
    rfl
  obtain ⟨c, hc, rfl⟩ := Option.map_eq_some_iff.1 h
  have hcoef := eq_coefOffset_of_coefAt hc
  have hword : (Fin.ofNat 4 (o / 4)).val = o / 4 % 4 := rfl
  rw [offsetOf]
  congr 1
  omega

/-- A register word found at a word offset is the one whose name stands for that offset (R57, R81). -/
theorem eq_offsetOf_of_locate {off : Offset} {g : RegWord} (hal : off.toNat % 4 = 0) (h : locate off = some g) :
    off = offsetOf g := by
  have ho : off.toNat % 0x100 % 4 = 0 := by omega
  have hsplit := Nat.div_add_mod off.toNat 0x100
  suffices hg : offsetOf g = BitVec.ofNat 12 (0x100 * (off.toNat / 0x100) + off.toNat % 0x100) by
    rw [hg, hsplit, BitVec.ofNat_toNat, BitVec.setWidth_eq]
  unfold locate at h
  split at h
  case h_1 hpage => simpa [hpage] using offsetOf_of_controlWordAt ho h
  case h_2 hpage => rw [hpage]; exact offsetOf_of_fieldWordAt ho h
  case h_3 hpage => rw [hpage]; exact offsetOf_of_divWordAt ho h
  case h_4 hpage => rw [hpage]; exact offsetOf_of_divWordAt ho h
  case h_5 hpage => rw [hpage]; exact offsetOf_of_divWordAt ho h
  case h_6 hpage =>
    simp only at h
    split at h
    · cases h
      have hword : (Fin.ofNat 8 (off.toNat % 0x100 / 4)).val = off.toNat % 0x100 / 4 % 8 := rfl
      rw [offsetOf]
      congr 1
      omega
    · cases h
  case h_7 => cases h

/-- Every register word is found where its name stands (R57, R121). -/
theorem locate_offsetOf (g : RegWord) : locate (offsetOf g) = some g := by
  cases g with
  | param q w => cases q <;> revert w <;> decide
  | coef S c w => cases S <;> cases c <;> revert w <;> decide
  | degree S d => cases S <;> cases d <;> decide
  | fa w => revert w; decide
  | fb w => revert w; decide
  | fr w => revert w; decide
  | k w => revert w; decide
  | _ => decide

/-- The constants stand at their own offset only, aligned or not (R31, R35). -/
theorem toNat_of_locate_constant {off : Offset} {g : RegWord} (hg : g = .id ∨ g = .kbits) (h : locate off = some g) :
    off.toNat = (offsetOf g).toNat := by
  have hcontrol : ∀ o, controlWordAt o = some g → o = (offsetOf g).toNat := by
    intro o hc
    unfold controlWordAt at hc
    rcases hg with rfl | rfl <;> split at hc <;> simp at hc <;> rfl
  have hfield : ∀ o, fieldWordAt o ≠ some g := by
    intro o hf
    unfold fieldWordAt at hf
    rcases hg with rfl | rfl <;> split at hf <;> simp at hf
  have hdiv : ∀ S o, divWordAt S o ≠ some g := by
    intro S o hd
    unfold divWordAt at hd
    rcases hg with rfl | rfl <;> split_ifs at hd <;> simp at hd
  unfold locate at h
  split at h
  case h_1 hpage => have := hcontrol _ h; omega
  case h_2 => exact absurd h (hfield _)
  case h_3 | h_4 | h_5 => exact absurd h (hdiv _ _)
  case h_6 => rcases hg with rfl | rfl <;> simp at h
  case h_7 => cases h

/-! ### Reads and writes by name -/

/-- A read of a register word returns its content, or 0 where a result is hidden (R84, R86). -/
theorem memRead_of_locate {off : Offset} {g : RegWord} (h : locate off = some g) (s : State) :
    memRead off s = if s.busy && g.isResult then 0 else readReg s g := by
  simp [memRead, h]

/-- A read of a register word that is no result returns its content, BUSY or not (R84). -/
theorem memRead_offsetOf {g : RegWord} (hg : g.isResult = false) (s : State) : memRead (offsetOf g) s = readReg s g := by
  simp [memRead_of_locate (locate_offsetOf g), hg]

/-- A STATUS write takes effect BUSY or not (R85). -/
theorem memWrite_status (w : Word) (s : State) : memWrite (offsetOf .status) w s = writeStatus w s := by
  simp [memWrite, locate_offsetOf]

/-- A write to an idle core is the write of the register word that the offset names (R85). -/
theorem memWrite_offsetOf {s : State} (hidle : s.busy = false) (g : RegWord) (w : Word) :
    memWrite (offsetOf g) w s = writeReg g w s := by
  by_cases hg : g = .status
  · subst hg
    exact memWrite_status w s
  · simp [memWrite, locate_offsetOf, hidle, hg]

/-! ### What the effects of the commands leave alone -/

@[simp] theorem effectOf_params (i : Instr) (s : State) : (effectOf i s).params = s.params := by
  rw [effectOf_frame]

@[simp] theorem effectOf_p (i : Instr) (s : State) : (effectOf i s).p = s.p := by
  rw [effectOf_frame]; rfl

@[simp] theorem effectOf_ie (i : Instr) (s : State) : (effectOf i s).ie = s.ie := by
  rw [effectOf_frame]

@[simp] theorem effectOf_fault (i : Instr) (s : State) : (effectOf i s).fault = s.fault := by
  rw [effectOf_frame]

@[simp] theorem effectOf_fcode (i : Instr) (s : State) : (effectOf i s).fcode = s.fcode := by
  rw [effectOf_frame]

@[simp] theorem effectOf_k (i : Instr) (s : State) : (effectOf i s).k = s.k := by
  rw [effectOf_frame]

/-- Only INIT writes PRM (R51). -/
theorem effectOf_prm {i : Instr} (hi : i ≠ .init) (s : State) : (effectOf i s).prm = s.prm := by
  cases i with
  | init => exact absurd rfl hi
  | dnorm => rw [effectOf, dnormEffect_frame]
  | dadd | ddbl | dsmul => rw [effectOf, groupEffect_frame]
  | _ => rfl

/-- Only five commands write R (R44). -/
theorem effectOf_r {i : Instr} (hi : i ∉ [.did, .dnorm, .dadd, .ddbl, .dsmul]) (s : State) :
    (effectOf i s).r = s.r := by
  cases i with
  | did | dnorm | dadd | ddbl | dsmul => simp at hi
  | _ => rfl

/-- A check that fails raises a fault code (R311). -/
theorem checksOf_ne_some_none (i : Instr) (s : State) : checksOf i s ≠ some .none := by
  have hneed : needParams s ≠ some .none := by simp [needParams_eq_some_iff]
  have hFAFB : checkFAFB s ≠ some .none := by
    unfold checkFAFB
    split <;> grind
  have hFA : checkFA s ≠ some .none := by
    unfold checkFA
    split <;> grind
  have hinit : initChecks s ≠ some .none := by
    unfold initChecks
    grind
  have hdnorm : dnormChecks s ≠ some .none := by
    unfold dnormChecks
    split <;> grind
  have hgroup : ∀ Ds, groupChecks Ds s ≠ some .none := by
    intro Ds
    unfold groupChecks
    split <;> grind
  cases i with
  | init => exact hinit
  | fadd | fsub | fmul | fsel => exact hFAFB
  | fneg | finv => exact hFA
  | dchk => exact hneed
  | dnorm => exact hdnorm
  | dadd | ddbl | dsmul => exact hgroup _
  | movfa | movfb | did | movra | movrb => simp [checksOf, noChecks]

/-! ### The result of a field command -/

/-- The masked select of R166 selects. -/
theorem maskedSelect_eq (c : Bool) (a b : FieldWord) : maskedSelect c a b = if c then b else a := by
  have hones : (0 - (BitVec.ofBool true).setWidth 128 : FieldWord) = BitVec.allOnes 128 := by decide
  cases c
  · change b &&& 0#128 ||| a &&& BitVec.allOnes 128 = a
    rw [BitVec.and_zero, BitVec.and_allOnes, BitVec.zero_or]
  · rw [maskedSelect, hones, BitVec.and_allOnes, BitVec.not_allOnes, BitVec.and_zero, BitVec.or_zero]
    rfl

/-- A value below p stays below p in a register. -/
theorem toNat_ofNat_lt {v p n : Nat} (h : v < p) : (BitVec.ofNat n v).toNat < p := by
  rw [BitVec.toNat_ofNat]
  exact (Nat.mod_le ..).trans_lt h

/-- FR stays a field element (R169). -/
theorem effectOf_fr_lt {i : Instr} {s : State} (hpos : 0 < s.p) (hfr : s.fr.toNat < s.p) (hcheck : checksOf i s = none) :
    (effectOf i s).fr.toNat < s.p := by
  cases i with
  | fadd => exact toNat_ofNat_lt (addp_lt hpos _ _)
  | fsub => exact toNat_ofNat_lt (subp_lt hpos _ _)
  | fmul => exact toNat_ofNat_lt (mulp_lt hpos _ _)
  | fneg => exact toNat_ofNat_lt (negp_lt hpos _)
  | finv =>
    have hinv : invp s.p s.fa.toNat = _ := invp_eq _ _ s.params.p.isLt
    exact toNat_ofNat_lt (hinv ▸ Nat.mod_lt _ hpos)
  | fsel =>
    obtain ⟨-, hfa, hfb⟩ := (checkFAFB_eq_none_iff s).1 hcheck
    simp only [effectOf, maskedSelect_eq]
    split
    exacts [hfb, hfa]
  | dnorm => rwa [effectOf, dnormEffect_frame]
  | dadd | ddbl | dsmul => rwa [effectOf, groupEffect_frame]
  | _ => exact hfr

/-- Without a parameter set no command writes FR or CHK (R145). -/
theorem effectOf_of_prm_eq_false {i : Instr} {s : State} (hprm : s.prm = false) (hcheck : checksOf i s = none) :
    (effectOf i s).fr = s.fr ∧ (effectOf i s).chk = s.chk := by
  cases i with
  | init | movfa | movfb | did | movra | movrb => exact ⟨rfl, rfl⟩
  | fadd | fsub | fmul | fsel => simp [checksOf, checkFAFB_eq_none_iff, hprm] at hcheck
  | fneg | finv => simp [checksOf, checkFA_eq_none_iff, hprm] at hcheck
  | dchk => simp [checksOf, needParams_eq_none_iff, hprm] at hcheck
  | dnorm => simp [checksOf, dnormChecks_eq_none_iff, hprm] at hcheck
  | dadd | ddbl | dsmul => simp [checksOf, groupChecks_eq_none_iff, hprm] at hcheck

/-! ### What a step can change -/

/-- All that a step can do to the core, `resets` being what allows a reset. -/
inductive Change (resets : Prop) (s : State) : State → Prop where
  | nothing : Change resets s s
  | faults (c : Pending) (code : FaultCode) (hpending : s.pending = some c) (hcode : code ≠ .none) :
      Change resets s (raiseFault code s)
  | finishes (c : Pending) (i : Instr) (hpending : s.pending = some c) (hdecode : decode c.cw = .ok i)
      (hcheck : checksOf i s = none) : Change resets s (finish i (effectOf i s))
  | status (w : Word) : Change resets s (writeStatus w s)
  | dropped (hbusy : s.busy = true) : Change resets s { s with ovr := true }
  | write (g : RegWord) (w : Word) (u : State) (hidle : s.busy = false) (hwrite : RegWrite g w s u)
      (hreset : g = .ctrl → w.getLsbD 31 = true → resets) : Change resets s u
  | hardReset (hreset : resets) (hooks : List HookEvent) (draws : Nat) :
      Change resets s (resetCore { s with hooks := hooks, draws := draws })

/-- The sequencer's turn does nothing, takes a fault or finishes a command (R142). -/
theorem change_of_sequencerTurn {resets : Prop} {s t : State} (h : sequencerTurn s = .next t) : Change resets s t := by
  rcases sequencerTurn_cases h with ⟨-, rfl⟩ | ⟨c, hc, ⟨i, hi, hexec⟩ | ⟨e, -, rfl⟩⟩
  · exact .nothing
  · rcases exec_cases hexec with ⟨code, hcode, rfl⟩ | ⟨hcheck, rfl⟩
    · exact .faults c code hc (fun h => checksOf_ne_some_none i s (h ▸ hcode))
    · exact .finishes c i hc hi hcheck
  · exact .faults c _ hc (by decide)

/-- A word write resets the core only as a CTRL write with bit 31 set while idle (R85, R352). -/
theorem change_of_memWrite {resets : Prop} {s : State} {off : Offset} {w : Word}
    (hreset : s.busy = false → locate off = some .ctrl → w.getLsbD 31 = true → resets) :
    Change resets s (memWrite off w s) := by
  rcases memWrite_cases off w s with ⟨-, h⟩ | ⟨hbusy, h⟩ | ⟨hidle, g, hg, h⟩ | ⟨-, -, h⟩ <;> rw [h]
  · exact .status w
  · exact .dropped hbusy
  · exact .write g w _ hidle (writeReg_spec g w s) (fun hctrl => hreset hidle (hctrl ▸ hg))
  · exact .nothing

/-- A well-formed write to CTRL is the transaction of `State.ResetNext`. -/
theorem eq_ctrl_write {x : Txn} (hrw : x.rw = .write) (hwf : x.wellFormed = true) (hctrl : locate x.off = some .ctrl) :
    x = ⟨.write, 0x004, .word, x.wdata⟩ := by
  obtain ⟨hsize, hal⟩ : x.size = .word ∧ x.off.toNat % 4 = 0 := by simpa [Txn.wellFormed] using hwf
  have hoff : x.off = 0x004 := eq_offsetOf_of_locate hal hctrl
  rw [← hrw, ← hsize, ← hoff]

/-- A state that has given no further response. -/
theorem eq_with_resps_append_nil (s : State) : s = { s with resps := s.resps ++ [] } := by
  simp

/-- All that a step can do: take what comes next off the environment's list, change the core, and append responses. -/
theorem step_change {s t : State} (h : step s = .next t) :
    ∃ rs u, Change s.ResetNext { s with env := s.env.tail } u ∧ t = { u with resps := u.resps ++ rs } := by
  rcases step_cases h with ⟨henv, hturn⟩ | ⟨es, henv, hturn⟩ | ⟨x, es, henv, rfl⟩ | ⟨es, henv, rfl⟩
  · have hsame : { s with env := s.env.tail } = s := by rw [henv, List.tail_nil, ← henv]
    rw [hsame]
    exact ⟨[], t, change_of_sequencerTurn hturn, eq_with_resps_append_nil t⟩
  · rw [henv]
    exact ⟨[], t, change_of_sequencerTurn hturn, eq_with_resps_append_nil t⟩
  · rcases busAccess_cases x { s with env := es } with ⟨r, hbus⟩ | ⟨hrw, hwf, hbus⟩ <;> rw [hbus, henv]
    · exact ⟨_, _, .nothing, rfl⟩
    · refine ⟨_, _, change_of_memWrite fun hidle hctrl hbit => ?_, rfl⟩
      refine .inr ⟨hidle, x.wdata, hbit, ?_⟩
      rw [henv, ← eq_ctrl_write hrw hwf hctrl]
      rfl
  · obtain ⟨hooks, draws, hreset⟩ := hardReset_eq { s with env := es }
    rw [hreset, henv]
    exact ⟨[], _, .hardReset (.inl (by simp [henv])) _ draws, eq_with_resps_append_nil _⟩

/-! ### The invariant -/

/-- A legal modulus is positive (R144). -/
theorem p_pos_of_paramOK {s : State} (h : paramOK s.params = true) : 0 < s.p := by
  simp only [paramOK, Bool.and_eq_true, decide_eq_true_eq] at h
  obtain ⟨⟨⟨-, hp⟩, -⟩, -⟩ := h
  exact Nat.lt_of_lt_of_le (by omega) hp

/-- The unimplemented bits of K, one by one (R45). -/
theorem scalarConsistent_iff (s : State) : s.ScalarConsistent ↔ ∀ n, s.kbits ≤ n → s.k.getLsbD n = false := by
  simp only [← BitVec.testBit_toNat]
  exact ⟨fun h n hn => Nat.testBit_lt_two_pow (h.trans_le (Nat.pow_le_pow_right (by omega) hn)),
    fun h => Nat.lt_pow_two_of_testBit _ h⟩

/-- KBITS is at most 256 (R6). -/
theorem kbits_le (s : State) : s.kbits ≤ 256 := s.kbitsM1.isLt

/-- Settles O50, on the reset state itself. -/
theorem invariantHoldsAtReset : Obligations.InvariantHoldsAtReset := by
  unfold Obligations.InvariantHoldsAtReset
  decide

/-- Reset leaves the invariant whatever was before, and whatever KBITS is (R351). -/
theorem inv_resetCore (s : State) : (resetCore s).Inv := by
  obtain ⟨hfault, hpending, hparams, -⟩ := invariantHoldsAtReset
  exact ⟨hfault, hpending, hparams, Nat.two_pow_pos _⟩

/-- A write of K leaves the unimplemented bits 0 (R45). -/
theorem scalarConsistent_setScalarWord {s : State} (h : s.ScalarConsistent) (i : Fin 8) (w : Word) :
    ({ s with k := setScalarWord s.kbits s.k i w } : State).ScalarConsistent := by
  rw [scalarConsistent_iff] at h ⊢
  intro n hn
  have hlt : ¬ n < s.kbits := Nat.not_lt.2 hn
  simp [getLsbD_setScalarWord _ _ _ _ _ (kbits_le s), hlt, h n hn]

/-- A command that passes its checks leaves the parameter set, FR and CHK consistent: INIT has checked the set, and
without one no other command writes FR or CHK (R39, R145, R169). -/
theorem paramsConsistent_effectOf {i : Instr} {s : State} (hs : s.ParamsConsistent) (hcheck : checksOf i s = none) :
    (effectOf i s).ParamsConsistent := by
  obtain ⟨hset, hunset⟩ := hs
  by_cases hi : i = .init
  · subst hi
    obtain ⟨hprm, hok⟩ := (initChecks_eq_none_iff s).1 hcheck
    obtain ⟨hfr, -⟩ := hunset hprm
    have hlt : s.fr.toNat < s.p := by simpa [hfr] using p_pos_of_paramOK hok
    exact ⟨fun _ => ⟨hok, hlt⟩, fun h => Bool.noConfusion h⟩
  · rw [State.ParamsConsistent, effectOf_prm hi, effectOf_params, effectOf_p]
    constructor
    · intro hprm
      obtain ⟨hok, hfr⟩ := hset hprm
      exact ⟨hok, effectOf_fr_lt (p_pos_of_paramOK hok) hfr hcheck⟩
    · intro hprm
      obtain ⟨hfr, hchk⟩ := effectOf_of_prm_eq_false hprm hcheck
      rw [hfr, hchk]
      exact hunset hprm

/-- A command that passes its checks was pending, so that FAULT was 0 (R147, R312). -/
theorem inv_finish {i : Instr} {s : State} (hs : s.Inv) (hbusy : s.busy = true) (hcheck : checksOf i s = none) :
    (finish i (effectOf i s)).Inv := by
  obtain ⟨⟨hcode, hidle⟩, -, hparams, hscalar⟩ := hs
  have hfault : s.fault = false := by
    rw [Bool.eq_false_iff]
    intro hf
    obtain ⟨hb, -⟩ := hidle hf
    simp [hb] at hbusy
  refine ⟨⟨?_, ?_⟩, ⟨?_, ?_⟩, paramsConsistent_effectOf hparams hcheck, ?_⟩
  · simpa using hcode
  · simp [hfault]
  · simp
  · simp
  · simpa using hscalar

/-- A fault is taken while BUSY, where DONE is 0 already (R140, R148). -/
theorem inv_raiseFault {code : FaultCode} {s : State} (hs : s.Inv) (hbusy : s.busy = true) (hcode : code ≠ .none) :
    (raiseFault code s).Inv := by
  obtain ⟨-, ⟨hdone, -⟩, hparams, hscalar⟩ := hs
  exact ⟨⟨by simp [hcode], fun _ => ⟨rfl, hdone hbusy⟩⟩, ⟨by simp, by simp⟩, hparams, hscalar⟩

/-- A STATUS write can clear DONE and never sets it (R34). -/
theorem inv_writeStatus {w : Word} {s : State} (hs : s.Inv) : (writeStatus w s).Inv := by
  obtain ⟨⟨hcode, hidle⟩, ⟨hdone, hpending⟩, hparams, hscalar⟩ := hs
  refine ⟨⟨hcode, fun hf => ?_⟩, ⟨fun hb => ?_, hpending⟩, hparams, hscalar⟩
  · obtain ⟨hb, hd⟩ := hidle hf
    simp [hb, hd]
  · simp [hdone hb]

/-- The record is made from CTRL and LASTOP at acceptance (R140, R150). -/
theorem inv_accept {cw : Word} {s : State} (hs : s.Inv) (hfault : s.fault = false) : (accept cw s).Inv := by
  obtain ⟨⟨hcode, -⟩, -, hparams, hscalar⟩ := hs
  exact ⟨⟨hcode, by simp [hfault]⟩, ⟨by simp, by simp⟩, hparams, hscalar⟩

/-- CTRL is written only while no record is held that must agree with it (R150). -/
theorem inv_writeCtrl {w : Word} {s : State} (hs : s.Inv) (hidle : s.busy = false) : (writeCtrl w s).Inv := by
  obtain ⟨hfault, ⟨hdone, -⟩, hparams, hscalar⟩ := hs
  have hpending : s.pending = none := by simpa [State.busy] using hidle
  exact ⟨hfault, ⟨hdone, by simp [hpending]⟩, hparams, hscalar⟩

/-- The staging registers are written only while PRM = 0 (R38). -/
theorem inv_setParams {s : State} (hs : s.Inv) (hprm : s.prm = false) (c : CurveParams) :
    ({ s with params := c } : State).Inv := by
  obtain ⟨hfault, hpending, ⟨-, hunset⟩, hscalar⟩ := hs
  exact ⟨hfault, hpending, ⟨by simp [hprm], hunset⟩, hscalar⟩

/-- Every write of a register of an idle core keeps the invariant (R85). -/
theorem inv_of_regWrite {g : RegWord} {w : Word} {s u : State} (hs : s.Inv) (hidle : s.busy = false)
    (h : RegWrite g w s u) : u.Inv := by
  cases h with
  | accepted _ hfault => exact inv_accept hs hfault
  | reset => exact inv_resetCore s
  | ctrl => exact inv_writeCtrl hs hidle
  | params hprm c => exact inv_setParams hs hprm c
  | scalar i =>
    obtain ⟨hfault, hpending, hparams, hscalar⟩ := hs
    exact ⟨hfault, hpending, hparams, scalarConsistent_setScalarWord hscalar i w⟩
  | status => exact inv_writeStatus hs
  | ignored | fa | fb | sel | setA | setB => exact hs

/-- BUSY is 1 while a record is held (R54). -/
theorem busy_of_pending {s : State} {c : Pending} (h : s.pending = some c) : s.busy = true := by
  simp [State.busy, h]

/-- Whatever a step changes, the invariant is kept. -/
theorem Change.inv {resets : Prop} {s u : State} (h : Change resets s u) (hs : s.Inv) : u.Inv := by
  cases h with
  | nothing | dropped => exact hs
  | faults c code hpending hcode => exact inv_raiseFault hs (busy_of_pending hpending) hcode
  | finishes c i hpending _ hcheck => exact inv_finish hs (busy_of_pending hpending) hcheck
  | status w => exact inv_writeStatus hs
  | write g w _ hidle hwrite => exact inv_of_regWrite hs hidle hwrite
  | hardReset _ hooks draws => exact inv_resetCore _

/-- Settles O51: each change a step can make keeps the invariant, which does not look at the environment's list or
the responses. -/
theorem stepKeepsInvariant : Obligations.StepKeepsInvariant := by
  intro s t hs h
  obtain ⟨rs, u, hchange, rfl⟩ := step_change h
  exact hchange.inv (s := { s with env := s.env.tail }) hs

/-! ### What no step changes, or few do -/

/-- Settles O60: of what a step can do, a reset and a completion write many fields, and neither writes this one. -/
theorem kbitsIsConstant : Obligations.KbitsIsConstant := by
  intro s t h
  refine ⟨?_, Nat.succ_pos _, kbits_le t⟩
  obtain ⟨rs, u, hchange, rfl⟩ := step_change h
  change u.kbits = ({ s with env := s.env.tail } : State).kbits
  cases hchange with
  | finishes c i => simp
  | write g w _ _ hwrite => cases hwrite <;> rfl
  | nothing | faults | status | dropped | hardReset => rfl

/-- Settles O59: of what a step can do without a reset, only a completion reaches R. -/
theorem resultSetChangedOnlyByItsCommands : Obligations.ResultSetChangedOnlyByItsCommands := by
  intro s t h hr hnoreset
  obtain ⟨rs, u, hchange, rfl⟩ := step_change h
  change u.r ≠ ({ s with env := s.env.tail } : State).r at hr
  cases hchange with
  | finishes c i hpending hdecode =>
    refine ⟨c, i, hpending, hdecode, ?_, rfl⟩
    by_contra hi
    exact hr (effectOf_r hi _)
  | write g w _ _ hwrite hreset =>
    cases hwrite with
    | reset hg hw => exact absurd (hreset hg hw) hnoreset
    | _ => exact absurd rfl hr
  | hardReset hreset => exact absurd hreset hnoreset
  | nothing | faults | status | dropped => exact absurd rfl hr

/-- With PRM = 1 no check passes that lets INIT finish, and no other change but a reset writes the parameter set. -/
theorem Change.params_of_prm {resets : Prop} {s u : State} (h : Change resets s u) (hno : ¬ resets)
    (hprm : s.prm = true) : u.prm = true ∧ u.params = s.params := by
  cases h with
  | finishes c i _ _ hcheck =>
    refine ⟨?_, effectOf_params i s⟩
    have hi : i ≠ .init := by
      rintro rfl
      simp [checksOf, initChecks_eq_none_iff, hprm] at hcheck
    exact (effectOf_prm hi s).trans hprm
  | write g w _ _ hwrite hreset =>
    cases hwrite with
    | reset hg hw => exact absurd (hreset hg hw) hno
    | params hp => exact absurd (hprm.symm.trans hp) (by decide)
    | _ => exact ⟨hprm, rfl⟩
  | hardReset hreset => exact absurd hreset hno
  | nothing | faults | status | dropped => exact ⟨hprm, rfl⟩

/-- PRM is set by a completion of INIT that has passed its checks, and by nothing else (R51, R143). -/
theorem Change.init_of_prm {resets : Prop} {s u : State} (h : Change resets s u) (hprm : s.prm = false)
    (hset : u.prm = true) :
    ∃ c, s.pending = some c ∧ decode c.cw = .ok .init ∧ paramOK s.params = true ∧ u.params = s.params := by
  have hkept : u.prm ≠ s.prm := by simp [hset, hprm]
  cases h with
  | finishes c i hpending hdecode hcheck =>
    have hi : i = .init := by
      by_contra hi
      exact hkept (effectOf_prm hi s)
    subst hi
    obtain ⟨-, hok⟩ := (initChecks_eq_none_iff s).1 hcheck
    exact ⟨c, hpending, hdecode, hok, rfl⟩
  | write g w _ _ hwrite =>
    cases hwrite with
    | reset => cases hset
    | _ => exact absurd rfl hkept
  | hardReset => cases hset
  | nothing | faults | status | dropped => exact absurd rfl hkept

/-- Settles O58, a half for each value of PRM. -/
theorem parametersAreImmutable : Obligations.ParametersAreImmutable := by
  constructor
  · intro s t hprm h hnoreset
    obtain ⟨rs, u, hchange, rfl⟩ := step_change h
    exact hchange.params_of_prm hnoreset hprm
  · intro s t hprm h hset
    obtain ⟨rs, u, hchange, rfl⟩ := step_change h
    exact hchange.init_of_prm hprm hset

/-! ### irq -/

/-- Settles O56: both ends of a completion raise irq with IE, a fault by FAULT and a finished command by DONE. -/
theorem interruptAfterCompletion : Obligations.InterruptAfterCompletion := by
  refine ⟨fun s => by simp [State.irq], fun i s t h => ?_, fun s w hw => ?_⟩
  · rcases exec_cases h with ⟨code, -, rfl⟩ | ⟨-, rfl⟩ <;> simp [State.irq]
  · rw [show memWrite 0x00C w s = writeStatus w s from memWrite_status w s]
    simp only [State.irq, writeStatus_ie, writeStatus_done, writeStatus_fault, hw]
    simp

/-! ### The control and status registers -/

/-- A flag is one bit of its word. -/
theorem getLsbD_flagAt (b : Bool) (i : Nat) {n : Nat} (hn : n < 32) : (flagAt b i).getLsbD n = (b && decide (n = i)) := by
  rw [flagAt, BitVec.getLsbD_shiftLeft, BitVec.getLsbD_setWidth]
  cases b
  · simp
  · rw [Bool.eq_iff_iff]
    simp [hn]
    omega

/-- STATUS, bit by bit (R34). -/
theorem getLsbD_statusWord (s : State) {n : Nat} (hn : n < 32) :
    s.statusWord.getLsbD n =
      ((s.busy && decide (n = 0)) || (s.done && decide (n = 1)) || (s.fault && decide (n = 2)) ||
        (s.ovr && decide (n = 3)) || (s.prm && decide (n = 4)) || (s.chk && decide (n = 5)) ||
        (decide (8 ≤ n) && s.fcode.code.getLsbD (n - 8)) || (decide (16 ≤ n) && s.lastop.getLsbD (n - 16))) := by
  have hfield : ∀ (v : BitVec 8) (i : Nat),
      (v.setWidth 32 <<< i).getLsbD n = (decide (i ≤ n) && v.getLsbD (n - i)) := by
    intro v i
    rw [BitVec.getLsbD_shiftLeft, BitVec.getLsbD_setWidth]
    simp [hn]
    grind
  simp only [State.statusWord, BitVec.getLsbD_or, getLsbD_flagAt _ _ hn, hfield]

/-- The reserved bits of STATUS read 0, and FCODE and LASTOP stand at bits 15:8 and 23:16 (R34). -/
theorem extractLsb'_statusWord (s : State) :
    s.statusWord.extractLsb' 6 2 = 0 ∧ s.statusWord.extractLsb' 8 8 = s.fcode.code ∧
      s.statusWord.extractLsb' 16 8 = s.lastop ∧ s.statusWord.extractLsb' 24 8 = 0 := by
  refine ⟨?_, ?_, ?_, ?_⟩ <;> refine BitVec.eq_of_getLsbD_eq fun n hn => ?_ <;>
    rw [BitVec.getLsbD_extractLsb', getLsbD_statusWord s (by omega)] <;> interval_cases n <;> simp

/-- Settles O45, from the bits of STATUS and the fields that span several of them. -/
theorem statusLayoutAndWrite : Obligations.StatusLayoutAndWrite := by
  refine ⟨fun s w => ⟨?_, ?_⟩, rfl, rfl, rfl, rfl, rfl, rfl, rfl, rfl⟩
  · have hread : memRead 0x00C s = s.statusWord := memRead_offsetOf (g := .status) rfl s
    rw [hread]
    refine ⟨?_, ?_, ?_, ?_, ?_, ?_, extractLsb'_statusWord s⟩ <;> rw [getLsbD_statusWord s (by decide)] <;> simp
  · have hclear : ∀ flag bit : Bool, (flag && !bit) = if bit then false else flag := by decide
    refine (memWrite_status w s).trans ?_
    simp only [writeStatus, hclear]

/-- Settles O46: the word read back is compared with the data bit by bit. -/
theorem ctrlWriteStoresThreeBits : Obligations.CtrlWriteStoresThreeBits := by
  intro s w hidle hw
  have hwrite : memWrite 0x004 w s = writeCtrl w s := by
    refine (memWrite_offsetOf hidle .ctrl w).trans ?_
    simp only [writeReg, hw, Bool.false_eq_true, if_false]
  have hread : ∀ s, memRead 0x004 s = s.ctrlWord := memRead_offsetOf (g := .ctrl) rfl
  have hseven : ∀ n < 32, (7 : Word).getLsbD n = decide (n < 3) := by decide
  refine ⟨hwrite, ?_⟩
  rw [hwrite, hread]
  refine BitVec.eq_of_getLsbD_eq fun n hn => ?_
  simp only [State.ctrlWord, BitVec.getLsbD_or, BitVec.getLsbD_and, getLsbD_flagAt _ _ hn, hseven n hn,
    writeCtrl_chken, writeCtrl_hooken, writeCtrl_ie]
  rcases n with _ | _ | _ | n <;> simp

/-! ### K -/

/-- Settles O38: the offsets of R46 are those of K, which reads 0, and no register's reading looks at K. -/
theorem scalarIsNeverRead : Obligations.ScalarIsNeverRead := by
  constructor
  · intro s off hlo hhi
    have hpage : off.toNat / 0x100 = 5 := by omega
    have hword : off.toNat % 0x100 < 0x20 := by omega
    have hk : locate off = some (.k (Fin.ofNat 8 (off.toNat % 0x100 / 4))) := by simp only [locate, hpage, hword, if_true]
    simp [memRead_of_locate hk, readReg]
  · intro s k off
    cases h : locate off with
    | none => simp [memRead, h]
    | some g =>
      have hreg : readReg { s with k := k } g = readReg s g := by cases g <;> rfl
      rw [memRead_of_locate h, memRead_of_locate h, hreg]
      rfl

/-- Settles O43, from the bits of `setScalarWord`. -/
theorem scalarWriteStoresImplementedBits : Obligations.ScalarWriteStoresImplementedBits := by
  intro s i w hidle
  exact ⟨_, memWrite_offsetOf hidle (.k i) w, fun n => getLsbD_setScalarWord _ _ _ _ _ (kbits_le s)⟩

/-! ### The map -/

/-- Settles O40, from the two directions of the map and the rule for reads by name. -/
theorem addressMapIsComplete : Obligations.AddressMapIsComplete := by
  refine ⟨locate_offsetOf, fun off g => eq_offsetOf_of_locate, fun s off w h => ?_, fun s => ?_, fun s i => ?_⟩
  · exact ⟨by simp [memRead, h], fun hidle => by simp [memWrite, h, hidle]⟩
  · have hkbits : (BitVec.ofNat 32 s.kbits).toNat = s.kbits := by
      have := kbits_le s
      rw [BitVec.toNat_ofNat]
      omega
    have hsel : flagAt s.sel 0 = if s.sel then 1 else 0 := by cases s.sel <;> rfl
    refine ⟨memRead_offsetOf (g := .id) rfl s, memRead_offsetOf (g := .cmd) rfl s, memRead_offsetOf (g := .opcnt) rfl s,
      ?_, ?_⟩
    · exact (congrArg _ (memRead_offsetOf (g := .kbits) rfl s)).trans hkbits
    · exact (memRead_offsetOf (g := .fc) rfl s).trans hsel
  · exact ⟨fun q => memRead_offsetOf rfl s, memRead_offsetOf rfl s, memRead_offsetOf rfl s,
      fun c => ⟨memRead_offsetOf rfl s, memRead_offsetOf rfl s⟩,
      fun d => ⟨memRead_offsetOf rfl s, memRead_offsetOf rfl s⟩⟩

/-- Setting a staging register changes that register and no other. -/
theorem CurveParams.get_set (c : CurveParams) (q q' : ParamReg) (v : FieldWord) :
    (c.set q v).get q' = if q' = q then v else c.get q' := by
  cases q <;> cases q' <;> rfl

/-- Settles O44: each clause is the write of the register word that the offset names. -/
theorem stagingAndFieldRegisterWrites : Obligations.StagingAndFieldRegisterWrites := by
  intro s w hidle
  have hwrite := fun g => memWrite_offsetOf hidle g w
  refine ⟨fun q i hprm => ?_, fun q i hprm => ?_, hwrite .fc, ⟨hwrite .id, hwrite .opcnt, hwrite .kbits⟩,
    fun i => ⟨hwrite (.fr i), fun c => hwrite (.coef .r c i)⟩, fun d => hwrite (.degree .r d)⟩
  · refine ⟨s.params.set q (setWord (s.params.get q) i w), ?_, fun j => ?_, fun q' hq' => ?_⟩
    · simp [hwrite, writeReg, hprm]
    · rw [CurveParams.get_set, if_pos rfl, getWord_setWord]
    · rw [CurveParams.get_set, if_neg hq']
  · simp [hwrite, writeReg, hprm]

/-! ### Reset -/

/-- Every register reads 0 after reset but the two constants (R57). -/
theorem readReg_reset {g : RegWord} (hid : g ≠ .id) (hkbits : g ≠ .kbits) : readReg State.reset g = 0 := by
  have hword : ∀ i, getWord 0 i = 0 := by decide
  cases g with
  | id => exact absurd rfl hid
  | kbits => exact absurd rfl hkbits
  | param q i => cases q <;> exact hword i
  | coef S c i => cases S <;> cases c <;> exact hword i
  | degree S d => cases S <;> cases d <;> rfl
  | fa i | fb i | fr i => exact hword i
  | ctrl | cmd | status | opcnt | fc | k => rfl

/-- Settles O47: what is found at an offset is neither constant unless the offset is 0x000 or 0x014. -/
theorem resetLeavesZeroes : Obligations.ResetLeavesZeroes := by
  refine ⟨memRead_offsetOf (g := .id) rfl _, fun off hlo hne => ?_, rfl, rfl, rfl, rfl⟩
  cases h : locate off with
  | none => simp [memRead, h]
  | some g =>
    have hid : g ≠ .id := by
      rintro rfl
      have hzero : off.toNat = 0 := toNat_of_locate_constant (.inl rfl) h
      omega
    have hkbits : g ≠ .kbits := by
      rintro rfl
      exact hne (toNat_of_locate_constant (.inr rfl) h)
    simp [memRead_of_locate h, readReg_reset hid hkbits]

end Sys2Proof.Machine

/-! The statements about the register window: bus transactions, writes while BUSY, hidden results, and operand words
and registers as the host writes and reads them. -/

namespace Sys2Proof.Machine

open HostAsm

/-! ### Bus transactions -/

/-- The shape of a transaction that is answered OKAY: a word at a multiple of 4 (R83). -/
theorem wellFormed_iff (t : Txn) : t.wellFormed = true ↔ t.size = .word ∧ t.off.toNat % 4 = 0 := by
  simp [Txn.wellFormed]

/-- A narrow or misaligned transaction only gives its ERR response (R83). -/
theorem busAccess_of_not_wellFormed {t : Txn} (h : ¬ t.wellFormed = true) (s : State) :
    busAccess t s = s.respond ⟨.err, some 0⟩ :=
  if_neg h

/-- An aligned word read only gives its response (R84, R91). -/
theorem busAccess_read {t : Txn} (h : t.wellFormed = true) (hrw : t.rw = .read) (s : State) :
    busAccess t s = s.respond ⟨.okay, some (memRead t.off s)⟩ := by
  simp only [busAccess, h, hrw, if_true]

/-- An aligned word write performs MemWrite and gives its response (R85). -/
theorem busAccess_write {t : Txn} (h : t.wellFormed = true) (hrw : t.rw = .write) (s : State) :
    busAccess t s = (memWrite t.off t.wdata s).respond ⟨.okay, none⟩ := by
  simp only [busAccess, h, hrw, if_true]

/-- MemWrite gives no response itself (R82). -/
theorem memWrite_resps (off : Offset) (w : Word) (s : State) : (memWrite off w s).resps = s.resps := by
  rcases memWrite_cases off w s with ⟨-, h⟩ | ⟨-, h⟩ | ⟨-, g, -, h⟩ | ⟨-, -, h⟩ <;> rw [h]
  · rfl
  · have hwrite := writeReg_spec g w s
    generalize writeReg g w s = u at hwrite
    cases hwrite <;> rfl

/-- Settles O39, one clause for each answer of the bus port. -/
theorem badShapeAndReadsChangeNothing : Obligations.BadShapeAndReadsChangeNothing := by
  refine ⟨fun s t hbad => ?_, fun s t hsize hal hrw => ?_, fun s t hsize hal hrw => ⟨none, ?_⟩⟩
  · refine busAccess_of_not_wellFormed (fun hwf => ?_) s
    obtain ⟨hsize, hal⟩ := (wellFormed_iff t).1 hwf
    exact hbad.elim (absurd hsize) (absurd hal)
  · exact busAccess_read ((wellFormed_iff t).2 ⟨hsize, hal⟩) hrw s
  · rw [busAccess_write ((wellFormed_iff t).2 ⟨hsize, hal⟩) hrw, State.respond, memWrite_resps]

/-- While BUSY a write elsewhere than at STATUS is dropped, and only OVR tells (R87). -/
theorem memWrite_of_busy {s : State} {off : Offset} (hbusy : s.busy = true) (hal : off.toNat % 4 = 0)
    (hoff : off ≠ 0x00C) (w : Word) : memWrite off w s = { s with ovr := true } := by
  have hstatus : locate off ≠ some .status := fun h => hoff (eq_offsetOf_of_locate hal h)
  simp only [memWrite, hstatus, hbusy, if_true, if_false]

/-- Settles O36: the transaction is well formed, so it answers OKAY, and its write is dropped. -/
theorem writeWhileBusyIsDropped : Obligations.WriteWhileBusyIsDropped := by
  intro s off w hbusy hal hoff
  rw [busAccess_write ((wellFormed_iff _).2 ⟨rfl, hal⟩) rfl, memWrite_of_busy hbusy hal hoff]
  rfl

/-! ### Reads of busy and idle cores -/

/-- While BUSY a result reads 0 (R86). -/
theorem memRead_of_busy {s : State} {g : RegWord} (hbusy : s.busy = true) (hg : g.isResult = true) :
    memRead (offsetOf g) s = 0 := by
  simp [memRead_of_locate (locate_offsetOf g), hbusy, hg]

/-- A read of an idle core hides nothing (R84, R86). -/
theorem memRead_of_idle {s : State} (hidle : s.busy = false) (g : RegWord) : memRead (offsetOf g) s = readReg s g := by
  simp [memRead_of_locate (locate_offsetOf g), hidle]

/-- Settles O37: the three kinds of words are results, and `readReg` is their stored content. -/
theorem resultsHiddenWhileBusy : Obligations.ResultsHiddenWhileBusy := by
  intro s w c d
  refine ⟨fun hbusy => ?_, fun hidle => ?_⟩
  · exact ⟨memRead_of_busy hbusy rfl, memRead_of_busy hbusy rfl, memRead_of_busy hbusy rfl⟩
  · exact ⟨memRead_of_idle hidle (.fr w), memRead_of_idle hidle (.coef .r c w), memRead_of_idle hidle (.degree .r d)⟩

/-! ### Registers of a divisor set -/

/-- Setting a coefficient register changes that register and no other coefficient. -/
theorem DivRegs.getCoef_setCoef (D : DivRegs) (c c' : Coef) (v : FieldWord) :
    (D.setCoef c v).getCoef c' = if c' = c then v else D.getCoef c' := by
  cases c <;> cases c' <;> rfl

/-- Setting a coefficient register changes no stored degree. -/
@[simp] theorem DivRegs.getDegree_setCoef (D : DivRegs) (c : Coef) (v : FieldWord) (d : Degree) :
    (D.setCoef c v).getDegree d = D.getDegree d := by
  cases c <;> cases d <;> rfl

/-- Setting a stored degree changes no coefficient. -/
@[simp] theorem DivRegs.getCoef_setDegree (D : DivRegs) (d : Degree) (w : Word) (c : Coef) :
    (D.setDegree d w).getCoef c = D.getCoef c := by
  cases d <;> cases c <;> rfl

/-- Setting a stored degree changes that degree and not the other. -/
theorem DivRegs.getDegree_setDegree (D : DivRegs) (d d' : Degree) (w : Word) :
    (D.setDegree d w).getDegree d' = if d' = d then w else D.getDegree d' := by
  cases d <;> cases d' <;> rfl

/-- The host replaces the set it names, A or B (R42, R44). -/
theorem State.divSet_hostSetDiv (s : State) {S : DivSet} (hS : S ≠ .r) (D : DivRegs) (S' : DivSet) :
    (s.hostSetDiv S D).divSet S' = if S' = S then D else s.divSet S' := by
  cases S with
  | r => exact absurd rfl hS
  | a | b => cases S' <;> rfl

/-- Replacing a divisor set starts no command. -/
@[simp] theorem State.busy_hostSetDiv (s : State) (S : DivSet) (D : DivRegs) : (s.hostSetDiv S D).busy = s.busy := by
  cases S <;> rfl

/-! ### Operand words -/

/-- The register words that store whatever an idle core's host writes there: those of the staging registers while
PRM = 0, of FA and FB, and of the sets A and B (R38, R40, R42). -/
def State.StoresWord (s : State) : RegWord → Prop
  | .param _ _ => s.prm = false
  | .fa _ | .fb _ => True
  | .coef S _ _ | .degree S _ => S ≠ .r
  | _ => False

/-- The words that ReadAfterWrite lists. -/
theorem storesWord_of_listed {s : State} {g : RegWord}
    (h : (∃ q i, g = .param q i ∧ s.prm = false) ∨ (∃ i, g = .fa i ∨ g = .fb i) ∨
      (∃ S c i, g = .coef S c i ∧ S ≠ .r) ∨ (∃ S d, g = .degree S d ∧ S ≠ .r)) : s.StoresWord g := by
  rcases h with ⟨q, i, rfl, hprm⟩ | ⟨i, rfl | rfl⟩ | ⟨S, c, i, rfl, hS⟩ | ⟨S, d, rfl, hS⟩
  · exact hprm
  · trivial
  · trivial
  · exact hS
  · exact hS

/-- While PRM = 0 a staging word is stored (R38). -/
theorem writeReg_param {s : State} (hprm : s.prm = false) (q : ParamReg) (i : Fin 4) (w : Word) :
    writeReg (.param q i) w s = { s with params := s.params.set q (setWord (s.params.get q) i w) } := by
  simp [writeReg, hprm]

/-- The write of an operand word starts no command. -/
theorem writeReg_busy {s : State} {g : RegWord} (hg : s.StoresWord g) (w : Word) : (writeReg g w s).busy = s.busy := by
  cases g with
  | param q i => rw [writeReg_param hg]; rfl
  | fa i | fb i => rfl
  | coef S c i | degree S d => exact State.busy_hostSetDiv s S _
  | _ => exact hg.elim

/-- The word written holds the data, and every other register word what it held (R88, R92). -/
theorem readReg_writeReg {s : State} {g : RegWord} (hg : s.StoresWord g) (w : Word) (g' : RegWord) :
    readReg (writeReg g w s) g' = if g' = g then w else readReg s g' := by
  cases g with
  | param q i =>
    rw [writeReg_param hg]
    cases g' with
    | param q' i' => by_cases hq : q' = q <;> simp [readReg, CurveParams.get_set, getWord_setWord, hq]
    | _ => rfl
  | fa i =>
    cases g' with
    | fa i' => simp [readReg, writeReg, getWord_setWord]
    | _ => rfl
  | fb i =>
    cases g' with
    | fb i' => simp [readReg, writeReg, getWord_setWord]
    | _ => rfl
  | coef S c i =>
    have hset := s.divSet_hostSetDiv (S := S) hg
    cases g' with
    | coef S' c' i' =>
      by_cases hS : S' = S
      · by_cases hc : c' = c <;> simp [readReg, writeReg, hset, DivRegs.getCoef_setCoef, getWord_setWord, hS, hc]
      · simp [readReg, writeReg, hset, hS]
    | degree S' d' => by_cases hS : S' = S <;> simp [readReg, writeReg, hset, hS]
    | _ => cases S <;> rfl
  | degree S d =>
    have hset := s.divSet_hostSetDiv (S := S) hg
    cases g' with
    | coef S' c' i' => by_cases hS : S' = S <;> simp [readReg, writeReg, hset, hS]
    | degree S' d' => by_cases hS : S' = S <;> simp [readReg, writeReg, hset, DivRegs.getDegree_setDegree, hS]
    | _ => cases S <;> rfl
  | _ => exact hg.elim

/-- Settles O41: the core stays idle, so a read is of the register word that stands at the offset, if any does. -/
theorem readAfterWrite : Obligations.ReadAfterWrite := by
  intro s g w hidle hlisted
  have hg := storesWord_of_listed hlisted
  have hidle' : (writeReg g w s).busy = false := (writeReg_busy hg w).trans hidle
  rw [memWrite_offsetOf hidle]
  refine ⟨?_, fun off hal hne => ?_⟩
  · rw [memRead_of_idle hidle', readReg_writeReg hg, if_pos rfl]
  · cases h : locate off with
    | none => simp only [memRead, h]
    | some g' =>
      obtain rfl := eq_offsetOf_of_locate hal h
      have hg' : g' ≠ g := fun e => hne (congrArg offsetOf e)
      rw [memRead_of_idle hidle', memRead_of_idle hidle, readReg_writeReg hg, if_neg hg']

/-! ### Registers of four words -/

/-- A 128-bit register is the sum of its words, the lowest first (R88). -/
theorem joinWords_getWord (v : FieldWord) :
    joinWords [getWord v 0, getWord v 1, getWord v 2, getWord v 3] = v.toNat := by
  have hlt : v.toNat < 2 ^ 128 := v.isLt
  simp [joinWords, getWord, Nat.shiftRight_eq_div_pow]
  omega

/-- The register of four words, `w0` the lowest (R88). -/
def ofWords (w0 w1 w2 w3 : Word) : FieldWord :=
  BitVec.ofNat 128 (w0.toNat + w1.toNat * 2 ^ 32 + w2.toNat * 2 ^ 64 + w3.toNat * 2 ^ 96)

/-- Writing all four words of a register leaves nothing of what it held (R88, R92). -/
theorem setWord_four (v : FieldWord) (w0 w1 w2 w3 : Word) :
    setWord (setWord (setWord (setWord v 0 w0) 1 w1) 2 w2) 3 w3 = ofWords w0 w1 w2 w3 := by
  apply BitVec.eq_of_toNat_eq
  rw [← joinWords_getWord, ofWords, BitVec.toNat_ofNat]
  simp [joinWords, getWord_setWord]
  omega

/-- The writes of the four words `g`, in the order of `ldf` (R88, R122). -/
def fourWrites (g : Fin 4 → RegWord) (w0 w1 w2 w3 : Word) (s : State) : State :=
  memWrite (offsetOf (g 3)) w3 (memWrite (offsetOf (g 2)) w2 (memWrite (offsetOf (g 1)) w1
    (memWrite (offsetOf (g 0)) w0 s)))

/-- Four writes to an idle core put their data into the register whose words are `g`: `holding v` is the core with `v`
in that register, and a write of one of its words leaves the core with that word stored (R88). -/
theorem fourWrites_holding {g : Fin 4 → RegWord} {holding : FieldWord → State} (hidle : ∀ v, (holding v).busy = false)
    (hstore : ∀ v i w, writeReg (g i) w (holding v) = holding (setWord v i w)) (v : FieldWord) (w0 w1 w2 w3 : Word) :
    fourWrites g w0 w1 w2 w3 (holding v) = holding (ofWords w0 w1 w2 w3) := by
  have hwrite : ∀ v i w, memWrite (offsetOf (g i)) w (holding v) = holding (setWord v i w) :=
    fun v i w => (memWrite_offsetOf (hidle v) (g i) w).trans (hstore v i w)
  rw [fourWrites, hwrite, hwrite, hwrite, hwrite, setWord_four]

/-- Four writes fill FA (R40, R88). -/
theorem fourWrites_fa {s : State} (hidle : s.busy = false) (w0 w1 w2 w3 : Word) :
    fourWrites .fa w0 w1 w2 w3 s = { s with fa := ofWords w0 w1 w2 w3 } :=
  fourWrites_holding (holding := fun v => { s with fa := v }) (fun _ => hidle) (fun _ _ _ => rfl) s.fa w0 w1 w2 w3

/-- Four writes fill FB (R40, R88). -/
theorem fourWrites_fb {s : State} (hidle : s.busy = false) (w0 w1 w2 w3 : Word) :
    fourWrites .fb w0 w1 w2 w3 s = { s with fb := ofWords w0 w1 w2 w3 } :=
  fourWrites_holding (holding := fun v => { s with fb := v }) (fun _ => hidle) (fun _ _ _ => rfl) s.fb w0 w1 w2 w3

/-- Of two writes of one staging register the second stays. -/
@[simp] theorem CurveParams.set_set (c : CurveParams) (q : ParamReg) (v v' : FieldWord) :
    (c.set q v).set q v' = c.set q v' := by
  cases q <;> rfl

/-- Putting back what a staging register holds changes nothing. -/
@[simp] theorem CurveParams.set_get (c : CurveParams) (q : ParamReg) : c.set q (c.get q) = c := by
  cases q <;> rfl

/-- Four writes fill a staging register while PRM = 0 (R38, R88). -/
theorem fourWrites_param {s : State} (hidle : s.busy = false) (hprm : s.prm = false) (q : ParamReg)
    (w0 w1 w2 w3 : Word) :
    fourWrites (.param q) w0 w1 w2 w3 s = { s with params := s.params.set q (ofWords w0 w1 w2 w3) } := by
  have hfour := fourWrites_holding (g := .param q) (holding := fun v => { s with params := s.params.set q v })
    (fun _ => hidle)
    (fun v i w => by simp [writeReg_param (s := { s with params := s.params.set q v }) hprm, CurveParams.get_set])
    (s.params.get q) w0 w1 w2 w3
  simpa using hfour

/-- Of two writes of one coefficient register the second stays. -/
@[simp] theorem DivRegs.setCoef_setCoef (D : DivRegs) (c : Coef) (v v' : FieldWord) :
    (D.setCoef c v).setCoef c v' = D.setCoef c v' := by
  cases c <;> rfl

/-- Putting back what a coefficient register holds changes nothing. -/
@[simp] theorem DivRegs.setCoef_getCoef (D : DivRegs) (c : Coef) : D.setCoef c (D.getCoef c) = D := by
  cases c <;> rfl

/-- Of two replacements of one set the second stays. -/
@[simp] theorem State.hostSetDiv_hostSetDiv (s : State) (S : DivSet) (D D' : DivRegs) :
    (s.hostSetDiv S D).hostSetDiv S D' = s.hostSetDiv S D' := by
  cases S <;> rfl

/-- Putting back what a set holds changes nothing. -/
@[simp] theorem State.hostSetDiv_divSet (s : State) (S : DivSet) : s.hostSetDiv S (s.divSet S) = s := by
  cases S <;> rfl

/-- Four writes fill a coefficient register of A or B (R42, R88). -/
theorem fourWrites_coef {s : State} (hidle : s.busy = false) {S : DivSet} (hS : S ≠ .r) (c : Coef)
    (w0 w1 w2 w3 : Word) :
    fourWrites (.coef S c) w0 w1 w2 w3 s = s.hostSetDiv S ((s.divSet S).setCoef c (ofWords w0 w1 w2 w3)) := by
  have hfour := fourWrites_holding (g := .coef S c) (holding := fun v => s.hostSetDiv S ((s.divSet S).setCoef c v))
    (fun _ => (State.busy_hostSetDiv s S _).trans hidle)
    (fun v i w => by simp [writeReg, State.divSet_hostSetDiv s hS, DivRegs.getCoef_setCoef])
    ((s.divSet S).getCoef c) w0 w1 w2 w3
  simpa using hfour

/-! ### What reading statements bind -/

/-- Register words stand at multiples of 4 (R57, R81). -/
theorem offsetOf_aligned (g : RegWord) : (offsetOf g).toNat % 4 = 0 := by
  cases g with
  | param q w => cases q <;> revert w <;> decide
  | coef S c w => cases S <;> cases c <;> revert w <;> decide
  | degree S d => cases S <;> cases d <;> decide
  | fa w => revert w; decide
  | fb w => revert w; decide
  | fr w => revert w; decide
  | k w => revert w; decide
  | _ => decide

/-- The data that reads of register words of an idle core bring are what the words hold (R84). -/
theorem readData_answers {s : State} (hidle : s.busy = false) (gs : List RegWord) :
    readData (answers (gs.map fun g => rd (offsetOf g)) s) = gs.map (readReg s) := by
  have haligned : ∀ o ∈ gs.map offsetOf, o.toNat % 4 = 0 := by simp [offsetOf_aligned]
  have hanswers := answers_rds _ haligned s
  rw [List.map_map, List.map_map] at hanswers
  calc readData (answers (gs.map fun g => rd (offsetOf g)) s)
      = readData (gs.map fun g => ⟨.okay, some (memRead (offsetOf g) s)⟩) := congrArg readData hanswers
    _ = gs.map (readReg s) := by simp [readData, List.filterMap_map, memRead_of_idle hidle]

/-- `rdf` binds the value of the register whose words it reads (R88, R122). -/
theorem rdfValue_rdf {s : State} (hidle : s.busy = false) {g : Fin 4 → RegWord} {v : FieldWord}
    (hg : ∀ i, readReg s (g i) = getWord v i) : rdfValue (answers (rdf g) s) = v.toNat := by
  have hdata : readData (answers (rdf g) s) = [g 0, g 1, g 2, g 3].map (readReg s) :=
    readData_answers hidle [g 0, g 1, g 2, g 3]
  rw [rdfValue, hdata]
  simp only [List.map, hg, joinWords_getWord]

/-- The words that `rdd` reads, in its order (R122). -/
def resultWords : List RegWord :=
  [Coef.u0, .u1, .u2, .v0, .v1].flatMap (fun c => [.coef .r c 0, .coef .r c 1, .coef .r c 2, .coef .r c 3]) ++
    [.degree .r .degu, .degree .r .degv]

/-- `rdd` binds the seven registers of the R set (R122). -/
theorem rddValue_rdd {s : State} (hidle : s.busy = false) : rddValue (answers rdd s) = s.r := by
  have hdata : readData (answers rdd s) = resultWords.map (readReg s) := readData_answers hidle resultWords
  rw [rddValue, hdata]
  simp [resultWords, readReg, State.divSet, joinWords_getWord, DivRegs.getCoef, DivRegs.getDegree]

/-- Settles O42: the four writes register by register, and the values bound from the words that the reads bring. -/
theorem fourWordsMakeRegister : Obligations.FourWordsMakeRegister := by
  intro s w0 w1 w2 w3 hidle
  refine ⟨fourWrites_fa hidle w0 w1 w2 w3, fourWrites_fb hidle w0 w1 w2 w3,
    fun q hprm => fourWrites_param hidle hprm q w0 w1 w2 w3, fun c => ⟨?_, ?_⟩, ?_, ?_, ?_, fun q => ?_,
    rddValue_rdd hidle⟩
  · exact fourWrites_coef hidle (S := .a) (by decide) c w0 w1 w2 w3
  · exact fourWrites_coef hidle (S := .b) (by decide) c w0 w1 w2 w3
  · exact rdfValue_rdf hidle fun _ => rfl
  · exact rdfValue_rdf hidle fun _ => rfl
  · exact rdfValue_rdf hidle fun _ => rfl
  · exact rdfValue_rdf hidle fun _ => rfl

end Sys2Proof.Machine

/-! The statements about the encoding of command words: the fields of a word, the opcode map, and the decoder on
every word. -/

namespace Sys2Proof

/-! ### The fields of a command word -/

/-- OP is the remainder by 256 (R110). -/
theorem opField_toNat (cw : Word) : (opField cw).toNat = cw.toNat % 256 := by
  simp [opField]

/-- RSVD is the quotient by 256 (R110). -/
theorem rsvdField_toNat (cw : Word) : (rsvdField cw).toNat = cw.toNat / 256 := by
  simp only [rsvdField, BitVec.extractLsb'_toNat, Nat.shiftRight_eq_div_pow]
  omega

theorem rsvdField_eq_zero_iff {cw : Word} : rsvdField cw = 0 ↔ cw.toNat / 256 = 0 := by
  rw [← rsvdField_toNat]
  exact BitVec.toNat_inj.symm

/-- A word is put together from OP and RSVD: with RSVD zero, it is the encoding of the command that OP names. -/
theorem eq_encode {cw : Word} {i : Instr} (hrsvd : cw.toNat / 256 = 0) (hop : (opcode i).toNat = cw.toNat % 256) :
    cw = encode i := by
  have henc : (encode i).toNat = (opcode i).toNat := BitVec.toNat_setWidth_of_le (by decide)
  apply BitVec.eq_of_toNat_eq
  omega

/-- The per-command law of command words, for every command. -/
theorem commandWord_statement (i : Instr) : Laws.CommandWord.Statement i := by
  cases i with
  | init => exact Laws.CommandWord.init
  | fadd => exact Laws.CommandWord.fadd
  | fsub => exact Laws.CommandWord.fsub
  | fmul => exact Laws.CommandWord.fmul
  | fneg => exact Laws.CommandWord.fneg
  | finv => exact Laws.CommandWord.finv
  | fsel => exact Laws.CommandWord.fsel
  | movfa => exact Laws.CommandWord.movfa
  | movfb => exact Laws.CommandWord.movfb
  | did => exact Laws.CommandWord.did
  | dchk => exact Laws.CommandWord.dchk
  | dnorm => exact Laws.CommandWord.dnorm
  | movra => exact Laws.CommandWord.movra
  | movrb => exact Laws.CommandWord.movrb
  | dadd => exact Laws.CommandWord.dadd
  | ddbl => exact Laws.CommandWord.ddbl
  | dsmul => exact Laws.CommandWord.dsmul

/-! ### The opcode map -/

/-- The numbers of R113 are the opcodes of the commands, in the order of the opcode table. -/
theorem legalOpcodes_eq_map : legalOpcodes = Instr.all.map fun i => (opcode i).toNat := rfl

theorem exists_opcode_of_mem {n : Nat} (hn : n ∈ legalOpcodes) : ∃ i, (opcode i).toNat = n := by
  rw [legalOpcodes_eq_map] at hn
  obtain ⟨i, _, hi⟩ := List.mem_map.mp hn
  exact ⟨i, hi⟩

/-- The decoder's map inverts the encoder's. -/
@[simp] theorem decodeOp_opcode (i : Instr) : decodeOp (opcode i) = .ok i := by
  cases i <;> rfl

/-- No row of the decoder's map but the last is for an opcode outside R113 (R114). -/
theorem decodeOp_of_not_mem {op : Opcode} (hop : op.toNat ∉ legalOpcodes) :
    decodeOp op = .error .unassignedOpcode := by
  unfold decodeOp
  split
  case h_18 => rfl
  all_goals
    next hrow =>
      rw [hrow] at hop
      exact absurd (by decide) hop

/-! ### The decoder -/

/-- Reserved bits are looked at first, whatever OP is (R112). -/
theorem decode_of_reserved {cw : Word} (hrsvd : cw.toNat / 256 ≠ 0) : decode cw = .error .reservedBits :=
  if_neg (mt rsvdField_eq_zero_iff.mp hrsvd)

theorem decode_of_unassigned {cw : Word} (hrsvd : cw.toNat / 256 = 0) (hop : cw.toNat % 256 ∉ legalOpcodes) :
    decode cw = .error .unassignedOpcode := by
  rw [decode, if_pos (rsvdField_eq_zero_iff.mpr hrsvd)]
  exact decodeOp_of_not_mem (by rwa [opField_toNat])

@[simp] theorem decode_encode (i : Instr) : decode (encode i) = .ok i := by
  obtain ⟨hop, hrsvd, _⟩ := commandWord_statement i
  rw [decode, if_pos hrsvd, hop, decodeOp_opcode]

/-- Settles O2: an illegal word is refused for its reserved bits or else for its opcode, and a legal one is the
encoding of the command that its OP field names. -/
theorem decoderFollowsOpcodeMap : Obligations.DecoderFollowsOpcodeMap := by
  intro cw
  constructor
  · intro hillegal
    by_cases hrsvd : cw.toNat / 256 = 0
    · have hop : cw.toNat % 256 ∉ legalOpcodes := hillegal.resolve_left (not_not_intro hrsvd)
      exact ⟨_, decode_of_unassigned hrsvd hop⟩
    · exact ⟨_, decode_of_reserved hrsvd⟩
  · rintro ⟨hrsvd, hmem⟩
    obtain ⟨i, hop⟩ := exists_opcode_of_mem hmem
    have hdecode : decode cw = .ok i := by rw [eq_encode hrsvd hop, decode_encode]
    exact ⟨i, hdecode, hop⟩

/-- Settles O1. -/
theorem decodeOfEncode : Obligations.DecodeOfEncode :=
  fun i _ => decode_encode i

/-- Settles O3: the six legal words are encodings; the zero word has an unassigned opcode, and the last word has
bit 8 set above the opcode of FADD. -/
theorem sampleWordsDecode : Obligations.SampleWordsDecode :=
  ⟨decode_encode .init, decode_encode .fmul, decode_encode .movfb, decode_encode .dnorm, decode_encode .ddbl,
    decode_encode .dsmul, decode_of_unassigned (by decide) (by decide), decode_of_reserved (by decide)⟩

end Sys2Proof

/-! The statements about control: acceptance, the completion of a pending command and what it leaves unchanged, and
INIT. -/

namespace Sys2Proof.Machine

open HostAsm

/-! ### The two ends of a completion -/

/-- The hook trace after a completion without fault, in one append (R147, R331). -/
theorem finish_hooks_append (i : Instr) (s : State) :
    (finish i s).hooks = s.hooks ++ if s.hookSnapshot then hookSeq s.kbits i else [] := by
  rw [finish_hooks]
  split <;> simp

/-- The end of a completion without fault, as the statements write it (R147). -/
theorem finish_eq_completedWith (i : Instr) (s : State) : finish i s = s.completedWith i (hookSeq s.kbits i) := by
  rw [State.completedWith, ← finish_hooks_append]
  rfl

/-- A command whose checks raise `code` leaves the state faulted with it (R148). -/
theorem exec_of_fault {i : Instr} {s : State} {code : FaultCode} (h : checksOf i s = some code) :
    exec i s = .next (s.faultedWith code) :=
  (exec_eq_complete i s).trans (complete_of_fault h)

/-- A command whose checks pass completes with its destinations written (R147). -/
theorem exec_of_pass {i : Instr} {s : State} (h : checksOf i s = none) :
    exec i s = .next ((effectOf i s).completedWith i (hookSeq s.kbits i)) := by
  rw [exec_eq_complete, complete_of_pass h, finish_eq_completedWith, effectOf_kbits]

/-! ### Acceptance -/

theorem opField_eq_ofNat (cw : Word) : opField cw = BitVec.ofNat 8 (cw.toNat % 256) := by
  rw [← opField_toNat, BitVec.ofNat_toNat, BitVec.setWidth_eq]

/-- A CMD write to an idle core is accepted unless the core is in the fault state (R140, R141). -/
theorem memWrite_cmd {s : State} (hidle : s.busy = false) (cw : Word) :
    memWrite 0x008 cw s = if s.fault then s else accept cw s :=
  memWrite_offsetOf hidle .cmd cw

/-- Settles O34: an idle core without fault accepts the word. -/
theorem cmdWriteAccepts : Obligations.CmdWriteAccepts := by
  rintro s cw ⟨hidle, hfault⟩
  rw [memWrite_cmd hidle, if_neg (ne_true_of_eq_false hfault), ← opField_eq_ofNat]
  rfl

/-- Settles O35: BUSY drops the write as it drops any other, and the fault state ignores it. -/
theorem cmdWriteTurnedAway : Obligations.CmdWriteTurnedAway := by
  intro s cw
  refine ⟨fun hbusy => memWrite_of_busy hbusy (by decide) (by decide) cw, fun hidle hfault => ?_⟩
  rw [memWrite_cmd hidle, if_pos hfault]

/-! ### The sequencer's step -/

/-- With its turn at the head of the environment's list the sequencer moves (R93, R142). -/
theorem step_of_env_sequencer {s : State} {es : List EnvEvent} (h : s.env = .sequencer :: es) :
    step s = sequencerTurn { s with env := es } := by
  simp [step, h]

/-- Settles O4, by who moves: the sequencer, with a command pending or with none, or the host. -/
theorem stepRunsPendingCommand : Obligations.StepRunsPendingCommand := by
  refine ⟨fun s c i hpending hdecode _ => ⟨fun henv => ?_, fun es henv => ?_⟩,
    fun s hidle => ⟨fun henv => ?_, fun es henv => ?_⟩, fun s t es henv => step_eq_happen henv⟩
  · exact (step_of_env_nil henv).trans (sequencerTurn_of_command hpending hdecode)
  · exact (step_of_env_sequencer henv).trans (sequencerTurn_of_command hpending hdecode)
  · exact (step_of_env_nil henv).trans (sequencerTurn_of_idle hidle)
  · exact (step_of_env_sequencer henv).trans (sequencerTurn_of_idle hidle)

/-- Settles O5: the decoder refuses the word, and the sequencer's turn looks at nothing else. -/
theorem illegalWordFaults : Obligations.IllegalWordFaults := by
  intro s c hpending hillegal
  obtain ⟨e, hdecode⟩ := (decoderFollowsOpcodeMap c.cw).1 hillegal
  refine ⟨fun henv => ?_, fun es henv => ?_⟩
  · exact (step_of_env_nil henv).trans (sequencerTurn_of_illegal hpending hdecode)
  · exact (step_of_env_sequencer henv).trans (sequencerTurn_of_illegal hpending hdecode)

/-! ### INIT -/

/-- ParamOK() line by line (R144). -/
theorem paramOK_iff (c : CurveParams) :
    paramOK c = true ↔ c.p.toNat % 2 = 1 ∧ 3 ≤ c.p.toNat ∧ c.f5.toNat = 1 ∧
      (c.f0.toNat < c.p.toNat ∧ c.f1.toNat < c.p.toNat ∧ c.f2.toNat < c.p.toNat ∧ c.f3.toNat < c.p.toNat ∧
        c.f4.toNat < c.p.toNat) ∧
      (c.h0.toNat < c.p.toNat ∧ c.h1.toNat < c.p.toNat ∧ c.h2.toNat < c.p.toNat) := by
  simp [paramOK, and_assoc]

/-- Settles O8: the checks of INIT in their order, REINIT first. -/
theorem initFollowsRule : Obligations.InitFollowsRule := by
  refine ⟨decode_encode .init, fun s => ⟨fun hprm => ?_, fun hprm hillegal => ?_, fun hprm hlegal => ?_⟩⟩
  · have hcheck : initChecks s = some .reinit := by rw [initChecks, if_pos hprm]
    exact exec_of_fault hcheck
  · have hparam : ¬ paramOK s.params = true := mt (paramOK_iff s.params).1 hillegal
    have hcheck : initChecks s = some .badParam := by simp [initChecks, hprm, hparam]
    exact exec_of_fault hcheck
  · have hcheck : initChecks s = none := (initChecks_eq_none_iff s).2 ⟨hprm, (paramOK_iff s.params).2 hlegal⟩
    exact exec_of_pass (i := .init) hcheck

/-! ### What a completion leaves unchanged -/

@[simp] theorem effectOf_chken (i : Instr) (s : State) : (effectOf i s).chken = s.chken := by
  rw [effectOf_frame]

@[simp] theorem effectOf_hooken (i : Instr) (s : State) : (effectOf i s).hooken = s.hooken := by
  rw [effectOf_frame]

@[simp] theorem effectOf_ovr (i : Instr) (s : State) : (effectOf i s).ovr = s.ovr := by
  rw [effectOf_frame]

@[simp] theorem effectOf_lastop (i : Instr) (s : State) : (effectOf i s).lastop = s.lastop := by
  rw [effectOf_frame]

@[simp] theorem effectOf_sel (i : Instr) (s : State) : (effectOf i s).sel = s.sel := by
  rw [effectOf_frame]

@[simp] theorem effectOf_env (i : Instr) (s : State) : (effectOf i s).env = s.env := by
  rw [effectOf_frame]

@[simp] theorem effectOf_resps (i : Instr) (s : State) : (effectOf i s).resps = s.resps := by
  rw [effectOf_frame]

/-- CHK, FR, FA, FB, A and B are each written by the commands that R113 lists for them, and by no other. PRM and R
are in `effectOf_prm` and `effectOf_r`. -/
theorem effectOf_destinations (i : Instr) (s : State) :
    (i ≠ .dchk → (effectOf i s).chk = s.chk) ∧
    (i ∉ [.fadd, .fsub, .fmul, .fneg, .finv, .fsel] → (effectOf i s).fr = s.fr) ∧
    (i ≠ .movfa → (effectOf i s).fa = s.fa) ∧ (i ≠ .movfb → (effectOf i s).fb = s.fb) ∧
    (i ≠ .movra → (effectOf i s).a = s.a) ∧ (i ≠ .movrb → (effectOf i s).b = s.b) := by
  cases i with
  | dnorm =>
    rw [effectOf, dnormEffect_frame]
    simp
  | dadd | ddbl | dsmul =>
    rw [effectOf, groupEffect_frame]
    simp
  | _ => simp [effectOf]

/-- Settles O52: a failing check raises a fault code and writes nothing else; the other end is the frame of the
command's effect, destination by destination. -/
theorem completionWritesOnlyListed : Obligations.CompletionWritesOnlyListed := by
  intro i s t h
  rcases exec_cases h with ⟨code, hcode, rfl⟩ | ⟨-, rfl⟩
  · exact .inl ⟨code, fun hnone => checksOf_ne_some_none i s (hnone ▸ hcode), rfl⟩
  · have hhooks := finish_hooks_append i (effectOf i s)
    obtain ⟨hchk, hfr, hfa, hfb, ha, hb⟩ := effectOf_destinations i s
    have hprm : i ≠ .init → (effectOf i s).prm = s.prm := fun hi => effectOf_prm hi s
    have hr : i ∉ [.did, .dnorm, .dadd, .ddbl, .dsmul] → (effectOf i s).r = s.r := fun hi => effectOf_r hi s
    rw [effectOf_hooks, effectOf_hookSnapshot, effectOf_kbits] at hhooks
    refine .inr ⟨rfl, rfl, ?_, hhooks, ?_⟩
    · rw [finish_opcnt, effectOf_kbits]
    · simpa using (⟨hprm, hchk, hfr, hfa, hfb, ha, hb, hr⟩ : _ ∧ _ ∧ _ ∧ _ ∧ _ ∧ _ ∧ _ ∧ _)

/-! ### A pending command is completed -/

/-- The sequencer moves next, and `es` is what the environment does after it: the list is empty, or the sequencer's
turn is at its head (log entry 4). -/
def State.SequencerNext (s : State) (es : List EnvEvent) : Prop :=
  s.env = es ∧ es = [] ∨ s.env = .sequencer :: es

theorem step_of_sequencerNext {s : State} {es : List EnvEvent} (h : s.SequencerNext es) :
    step s = sequencerTurn { s with env := es } := by
  rcases h with ⟨rfl, henv⟩ | henv
  · exact step_of_env_nil henv
  · exact step_of_env_sequencer henv

/-- `m` is `s` but for DONE, OVR, the responses and the environment's list: all that host transactions can change
while a command is pending (R85, R87). -/
def State.Awaits (s m : State) : Prop :=
  ∃ d o rs, m = { s with done := d, ovr := o, resps := s.resps ++ rs, env := m.env }

theorem State.Awaits.refl (s : State) : s.Awaits s :=
  ⟨s.done, s.ovr, [], eq_with_resps_append_nil s⟩

theorem State.Awaits.trans {s m u : State} (hsm : s.Awaits m) (hmu : m.Awaits u) : s.Awaits u := by
  obtain ⟨_, _, rs, hm⟩ := hsm
  obtain ⟨d, o, rs', hu⟩ := hmu
  refine ⟨d, o, rs ++ rs', ?_⟩
  rw [hu, hm]
  simp

theorem State.Awaits.pending {s m : State} (h : s.Awaits m) : m.pending = s.pending := by
  obtain ⟨_, _, _, hm⟩ := h
  rw [hm]

/-- While BUSY a bus transaction leaves the core waiting for its completion: a write is a STATUS write or is dropped
(R85, R87). -/
theorem busAccess_of_busy {s : State} (hbusy : s.busy = true) (t : Txn) :
    s.Awaits (busAccess t s) ∧ (busAccess t s).env = s.env := by
  rcases busAccess_cases t s with ⟨r, h⟩ | ⟨-, -, h⟩ <;> rw [h]
  · exact ⟨⟨s.done, s.ovr, [r], rfl⟩, rfl⟩
  · rcases memWrite_cases t.off t.wdata s with ⟨-, hw⟩ | ⟨-, hw⟩ | ⟨hidle, -⟩ | ⟨hidle, -⟩
    · rw [hw]
      exact ⟨⟨_, _, [⟨.okay, none⟩], rfl⟩, rfl⟩
    · rw [hw]
      exact ⟨⟨s.done, true, [⟨.okay, none⟩], rfl⟩, rfl⟩
    · exact absurd (hbusy.symm.trans hidle) (by decide)
    · exact absurd (hbusy.symm.trans hidle) (by decide)

/-- Without a hardware reset to come, a busy core reaches the sequencer's move, after one step for each bus transaction
before it (R94, R149). -/
theorem run_to_sequencer {s : State} (hbusy : s.busy = true) (hno : .hardReset ∉ s.env) :
    ∃ n ≤ s.env.length, ∃ m es, core.run n s = .next m ∧ s.Awaits m ∧ m.SequencerNext es := by
  induction henv : s.env generalizing s with
  | nil => exact ⟨0, le_rfl, s, [], rfl, .refl s, .inl ⟨henv, rfl⟩⟩
  | cons e es ih =>
    rw [henv] at hno
    cases e with
    | sequencer => exact ⟨0, Nat.zero_le _, s, es, rfl, .refl s, .inr henv⟩
    | hardReset => exact absurd List.mem_cons_self hno
    | bus t =>
      have hstep : step s = .next (busAccess t { s with env := es }) := step_eq_happen henv
      obtain ⟨hawaits, henv'⟩ := busAccess_of_busy (s := { s with env := es }) hbusy t
      -- The list that `s` itself had plays no part in what `Awaits` says of it.
      have hfirst : s.Awaits (busAccess t { s with env := es }) := hawaits
      have hbusy' : (busAccess t { s with env := es }).busy = true := by rwa [State.busy, hawaits.pending]
      have hno' : .hardReset ∉ (busAccess t { s with env := es }).env := henv' ▸ List.not_mem_of_not_mem_cons hno
      obtain ⟨n, hn, m, rest, hrun, hm, hnext⟩ := ih hbusy' hno' henv'
      exact ⟨n + 1, Nat.succ_le_succ hn, m, rest, (run_succ hstep n).trans hrun, hfirst.trans hm, hnext⟩

/-- A completion shows in DONE or in FAULT (R147, R148). -/
theorem done_or_fault_of_sequencerTurn {s t : State} (hbusy : s.busy = true) (h : sequencerTurn s = .next t) :
    t.done = true ∨ t.fault = true := by
  rcases sequencerTurn_cases h with ⟨hidle, -⟩ | ⟨c, -, ⟨i, -, hexec⟩ | ⟨e, -, rfl⟩⟩
  · simp [State.busy, hidle] at hbusy
  · rcases exec_cases hexec with ⟨code, -, rfl⟩ | ⟨-, rfl⟩
    · exact .inr rfl
    · exact .inl rfl
  · exact .inr rfl

/-- Settles O7: the run to the sequencer's move keeps the record, and the move is the completion of its word. -/
theorem pendingCommandCompletes : Obligations.PendingCommandCompletes := by
  intro s c hpending hno
  obtain ⟨n, hn, m, es, hrun, hawaits, hnext⟩ := run_to_sequencer (busy_of_pending hpending) hno
  have hm : ({ m with env := es } : State).pending = some c := hawaits.pending.trans hpending
  have hstep := step_of_sequencerNext hnext
  obtain ⟨d, o, rs, hframe⟩ := hawaits
  refine ⟨n, hn, m, turn { m with env := es }, d, o, rs, es, hrun, hframe, hnext, fun i hi => ?_, fun e he => ?_,
    hstep.trans (sequencerTurn_eq _), turn_busy _, ?_⟩
  · exact hstep.trans (sequencerTurn_of_command hm hi)
  · exact hstep.trans (sequencerTurn_of_illegal hm he)
  · exact done_or_fault_of_sequencerTurn (busy_of_pending hm) (sequencerTurn_eq _)

end Sys2Proof.Machine

/-! The statements about the field unit: the checks of its commands (R160), the canonical form of their results, and
the moves from FR. -/

namespace Sys2Proof.Machine

/-! ### The checks -/

theorem checkFAFB_of_noParams {s : State} (hprm : s.prm = false) : checkFAFB s = some .noParams := by
  rw [checkFAFB, (needParams_eq_some_iff s .noParams).2 ⟨hprm, rfl⟩]

theorem checkFA_of_noParams {s : State} (hprm : s.prm = false) : checkFA s = some .noParams := by
  rw [checkFA, (needParams_eq_some_iff s .noParams).2 ⟨hprm, rfl⟩]

/-- Either operand out of range raises RANGE (R160). -/
theorem checkFAFB_of_range {s : State} (hprm : s.prm = true) (hrange : s.p ≤ s.fa.toNat ∨ s.p ≤ s.fb.toNat) :
    checkFAFB s = some .range := by
  have hout : ¬ (s.inRange s.fa && s.inRange s.fb) = true := by
    simp only [State.inRange, Bool.and_eq_true, decide_eq_true_eq]
    omega
  rw [checkFAFB, (needParams_eq_none_iff s).2 hprm]
  exact if_neg hout

/-- FA out of range raises RANGE, whatever FB is (R160). -/
theorem checkFA_of_range {s : State} (hprm : s.prm = true) (hrange : s.p ≤ s.fa.toNat) :
    checkFA s = some .range := by
  have hout : ¬ s.inRange s.fa = true := by simpa [State.inRange] using hrange
  rw [checkFA, (needParams_eq_none_iff s).2 hprm]
  exact if_neg hout

/-! ### Commands with one and with two operands -/

/-- A command without hook events whose checks pass leaves its effect completed (R147, R331). -/
theorem exec_of_pass_of_no_hooks {i : Instr} {s t : State} (hhooks : hookSeq s.kbits i = [])
    (heffect : effectOf i s = t) (hpass : checksOf i s = none) : exec i s = .next (t.completedWith i []) := by
  rw [exec_of_pass hpass, hhooks, heffect]

/-- All that a command that reads FA and FB can do, given what its effect leaves on operands in range (R160). -/
theorem exec_of_checkFAFB {i : Instr} {s t : State} (hchecks : checksOf i = checkFAFB) (hhooks : hookSeq s.kbits i = [])
    (heffect : s.fa.toNat < s.p → s.fb.toNat < s.p → effectOf i s = t) :
    (s.prm = false → exec i s = .next (s.faultedWith .noParams)) ∧
    (s.prm = true → s.p ≤ s.fa.toNat ∨ s.p ≤ s.fb.toNat → exec i s = .next (s.faultedWith .range)) ∧
    (s.prm = true → s.fa.toNat < s.p → s.fb.toNat < s.p → exec i s = .next (t.completedWith i [])) := by
  refine ⟨fun hprm => exec_of_fault ?_, fun hprm hrange => exec_of_fault ?_,
    fun hprm ha hb => exec_of_pass_of_no_hooks hhooks (heffect ha hb) ?_⟩ <;> rw [hchecks]
  · exact checkFAFB_of_noParams hprm
  · exact checkFAFB_of_range hprm hrange
  · exact (checkFAFB_eq_none_iff s).2 ⟨hprm, ha, hb⟩

/-- All that a command that reads FA alone can do, given what its effect leaves on an operand in range (R160). -/
theorem exec_of_checkFA {i : Instr} {s t : State} (hchecks : checksOf i = checkFA) (hhooks : hookSeq s.kbits i = [])
    (heffect : s.fa.toNat < s.p → effectOf i s = t) :
    (s.prm = false → exec i s = .next (s.faultedWith .noParams)) ∧
    (s.prm = true → s.p ≤ s.fa.toNat → exec i s = .next (s.faultedWith .range)) ∧
    (s.prm = true → s.fa.toNat < s.p → exec i s = .next (t.completedWith i [])) := by
  refine ⟨fun hprm => exec_of_fault ?_, fun hprm hrange => exec_of_fault ?_,
    fun hprm ha => exec_of_pass_of_no_hooks hhooks (heffect ha) ?_⟩ <;> rw [hchecks]
  · exact checkFA_of_noParams hprm
  · exact checkFA_of_range hprm hrange
  · exact (checkFA_eq_none_iff s).2 ⟨hprm, ha⟩

/-! ### Results without a division -/

/-- A sum of operands in range is reduced by one subtraction of p at most (R161). -/
theorem addp_eq_ite {p a b : Nat} (ha : a < p) (hb : b < p) :
    addp p a b = if a + b < p then a + b else a + b - p := by
  unfold addp
  split
  · next hlt => exact Nat.mod_eq_of_lt hlt
  · next hge => rw [Nat.mod_eq_sub_mod (by omega), Nat.mod_eq_of_lt (by omega)]

/-- A difference of operands in range borrows p once at most (R162). -/
theorem subp_eq_ite {p a b : Nat} (ha : a < p) (hb : b < p) :
    subp p a b = if b ≤ a then a - b else a + p - b := by
  have hint : (subp p a b : Int) = ((a : Int) - b) % p := natCast_subp (by omega) a b
  split
  · rw [Int.emod_eq_of_lt (by omega) (by omega)] at hint
    omega
  · rw [← Int.add_emod_right, Int.emod_eq_of_lt (by omega) (by omega)] at hint
    omega

/-- The negation of 0 is 0 and not p (R164). -/
theorem negp_eq_ite {p a : Nat} (ha : a < p) : negp p a = if a = 0 then 0 else p - a := by
  rw [negp_eq ha]
  split
  · next hzero => rw [hzero, Nat.sub_zero, Nat.mod_self]
  · next hne => exact Nat.mod_eq_of_lt (by omega)

/-! ### The commands -/

/-- Settles O9: the sum in its one-subtraction form. -/
theorem faddFollowsRule : Obligations.FaddFollowsRule :=
  ⟨decode_encode .fadd, fun s => exec_of_checkFAFB rfl rfl fun ha hb => congrArg (writeFR · s) (addp_eq_ite ha hb)⟩

/-- Settles O10: the difference in its one-borrow form. -/
theorem fsubFollowsRule : Obligations.FsubFollowsRule :=
  ⟨decode_encode .fsub, fun s => exec_of_checkFAFB rfl rfl fun ha hb => congrArg (writeFR · s) (subp_eq_ite ha hb)⟩

/-- Settles O11: `mulp` is the remainder of the exact product. -/
theorem fmulFollowsRule : Obligations.FmulFollowsRule :=
  ⟨decode_encode .fmul, fun _ => exec_of_checkFAFB rfl rfl fun _ _ => rfl⟩

/-- Settles O12: the negation with 0 apart; FB is not checked. -/
theorem fnegFollowsRule : Obligations.FnegFollowsRule :=
  ⟨decode_encode .fneg, fun s => exec_of_checkFA rfl rfl fun ha => congrArg (writeFR · s) (negp_eq_ite ha)⟩

/-- Settles O13: square and multiply computes the power, since p has at most 128 bits, and by Fermat the power is the
inverse. -/
theorem finvFollowsRule : Obligations.FinvFollowsRule := by
  refine ⟨decode_encode .finv, fun s => ?_⟩
  have hpow : invp s.p s.fa.toNat = s.fa.toNat ^ (s.p - 2) % s.p := invp_eq _ _ s.params.p.isLt
  obtain ⟨hnoParams, hrange, hpass⟩ :=
    exec_of_checkFA (i := .finv) (s := s) rfl rfl fun _ => congrArg (writeFR · s) hpow
  exact ⟨hnoParams, hrange, fun hprm ha =>
    ⟨hpass hprm ha, fun hprime ha0 => pow_sub_two_mod_mul_self_mod hprime ha0 ha⟩⟩

/-- Settles O14: the masked select of R166 selects. -/
theorem fselFollowsRule : Obligations.FselFollowsRule :=
  ⟨decode_encode .fsel, fun s => exec_of_checkFAFB rfl rfl fun _ _ =>
    congrArg (fun v => ({ s with fr := v } : State)) (maskedSelect_eq s.sel s.fa s.fb)⟩

/-- Settles O15: the moves check nothing. -/
theorem fieldMovesFollowRules : Obligations.FieldMovesFollowRules :=
  ⟨decode_encode .movfa, decode_encode .movfb, fun _ =>
    ⟨exec_of_pass_of_no_hooks (i := .movfa) rfl rfl rfl, exec_of_pass_of_no_hooks (i := .movfb) rfl rfl rfl⟩⟩

end Sys2Proof.Machine

/-! The statements about the polynomial unit: its functions as those of (Z/p)[x] (R192, R193), division with remainder
(R194), and the extended gcd (R196). -/

namespace Sys2Proof.Machine

open Polynomial

/-! ### What the results of the slot-wise functions and of the product stand for -/

section
variable {p : Nat} {a b : Poly} {A B : (ZMod p)[X]}

theorem Represents.zero : Represents p [] 0 := fun i => by simp

theorem Represents.cons (ha : Represents p a A) (c : Nat) : Represents p (c :: a) (C (c : ZMod p) + X * A) := fun i => by
  cases i with
  | zero => simp
  | succ j => simpa [coeff_C] using ha j

theorem Represents.one (p : Nat) : Represents p [1 % p] 1 := by
  simpa using Represents.zero.cons (p := p) (1 % p)

theorem Represents.add (ha : Represents p a A) (hb : Represents p b B) : Represents p (padd p a b) (A + B) :=
  fun i => by rw [coeff_add, coeff_padd, cast_addp, ha i, hb i]

theorem Represents.sub (hp : 0 < p) (ha : Represents p a A) (hb : Represents p b B) : Represents p (psub p a b) (A - B) :=
  fun i => by rw [coeff_sub, coeff_psub, cast_subp hp, ha i, hb i]

theorem Represents.neg (hp : 0 < p) (ha : Represents p a A) : Represents p (pneg p a) (-A) :=
  fun i => by rw [coeff_neg, coeff_pneg, cast_negp hp, ha i]

theorem Represents.scale (ha : Represents p a A) (c : Nat) : Represents p (pscale p c a) (C (c : ZMod p) * A) :=
  fun i => by rw [coeff_C_mul, coeff_pscale, cast_mulp, ha i]

/-- The product by Horner's rule on the slots of the first factor (R193). -/
theorem Represents.mul (ha : Represents p a A) (hb : Represents p b B) : Represents p (pmul p a b) (A * B) := by
  induction a generalizing A with
  | nil => rw [ha.unique Represents.zero, zero_mul, pmul]; exact Represents.zero
  | cons c cs ih =>
    obtain ⟨A', hA'⟩ := exists_represents p cs
    have hprod : A * B = C (c : ZMod p) * B + (C ((0 : Nat) : ZMod p) + X * (A' * B)) := by
      rw [ha.unique (hA'.cons c), Nat.cast_zero, C_0]
      ring
    rw [hprod, pmul]
    exact (hb.scale c).add ((ih hA').cons 0)

theorem canonical_padd (hp : 0 < p) (a b : Poly) : Canonical p (padd p a b) :=
  Canonical.of_coeff fun i => by rw [coeff_padd]; exact addp_lt hp _ _

theorem canonical_psub (hp : 0 < p) (a b : Poly) : Canonical p (psub p a b) :=
  Canonical.of_coeff fun i => by rw [coeff_psub]; exact subp_lt hp _ _

theorem canonical_pneg (hp : 0 < p) (a : Poly) : Canonical p (pneg p a) :=
  Canonical.of_coeff fun i => by rw [coeff_pneg]; exact negp_lt hp _

theorem canonical_pscale (hp : 0 < p) (c : Nat) (a : Poly) : Canonical p (pscale p c a) :=
  Canonical.of_coeff fun i => by rw [coeff_pscale]; exact mulp_lt hp _ _

theorem canonical_nil : Canonical p [] := fun _ hc => absurd hc List.not_mem_nil

theorem canonical_pmul (hp : 0 < p) (a b : Poly) : Canonical p (pmul p a b) := by
  cases a with
  | nil => exact canonical_nil
  | cons c cs => exact canonical_padd hp _ _

theorem Canonical.trim (hp : 0 < p) (h : Canonical p a) : Canonical p (Machine.trim a) :=
  Canonical.of_coeff fun i => by rw [coeff_trim]; exact h.coeff_lt hp i

end

/-- Settles O26, slot by slot, and for the product by induction on the first factor's slots. -/
theorem polynomialOpsRepresent : Obligations.PolynomialOpsRepresent :=
  fun _ a b _ _ c hp _ _ ha hb =>
    ⟨⟨ha.add hb, canonical_padd hp a b⟩, ⟨ha.sub hp hb, canonical_psub hp a b⟩, ⟨ha.neg hp, canonical_pneg hp a⟩,
      ⟨ha.scale c, canonical_pscale hp c a⟩, ⟨ha.mul hb, canonical_pmul hp a b⟩⟩

/-! ### Degrees and leading coefficients of canonical lists -/

section
variable {p : Nat} {a b : Poly} {A B : (ZMod p)[X]}

/-- On canonical lists the degree that the scan of R199 finds is the polynomial's. -/
theorem Represents.degree_lt_iff (hp : 0 < p) (ha : Represents p a A) (ca : Canonical p a) (n : Nat) :
    A.degree < n ↔ (Machine.trim a).length ≤ n := by
  rw [degree_lt_iff_coeff_zero, length_trim_le_iff]
  refine forall₂_congr fun i _ => ?_
  rw [ha i]
  exact ⟨eq_zero_of_cast (ca.coeff_lt hp i), fun hi => by rw [hi, Nat.cast_zero]⟩

theorem Represents.degree_eq (hp : 0 < p) (ha : Represents p a A) (ca : Canonical p a) (hA : A ≠ 0) :
    A.degree = ((Machine.trim a).length - 1 : Nat) ∧ 0 < (Machine.trim a).length := by
  have hdeg := degree_eq_natDegree hA
  have hlt := (ha.degree_lt_iff hp ca (A.natDegree + 1)).1 (by rw [hdeg]; exact_mod_cast Nat.lt_succ_self _)
  have hge := mt (ha.degree_lt_iff hp ca A.natDegree).2 (by rw [hdeg]; exact lt_irrefl _)
  refine ⟨?_, by omega⟩
  rw [hdeg, show A.natDegree = (Machine.trim a).length - 1 by omega]

/-- A smaller degree is a shorter list, the measure that bounds the loop of R196. -/
theorem Represents.length_trim_lt (hp : 0 < p) (ha : Represents p a A) (ca : Canonical p a) (hb : Represents p b B)
    (cb : Canonical p b) (hB : B ≠ 0) (hlt : A.degree < B.degree) :
    (Machine.trim a).length < (Machine.trim b).length := by
  obtain ⟨hdeg, hpos⟩ := hb.degree_eq hp cb hB
  have hle := (ha.degree_lt_iff hp ca _).1 (hdeg ▸ hlt)
  omega

theorem Represents.leadingCoeff_eq (hp : 0 < p) (ha : Represents p a A) (ca : Canonical p a) (hA : A ≠ 0) :
    A.leadingCoeff = (lc a : ZMod p) := by
  rw [leadingCoeff, natDegree_eq_of_degree_eq_some (ha.degree_eq hp ca hA).1, ha, lc_eq_coeff]

/-- The factor of R194 and R195 inverts the leading coefficient. -/
theorem Represents.invp_lc_mul_leadingCoeff (hp : p.Prime) (hlt : p < 2 ^ 128) (ha : Represents p a A)
    (ca : Canonical p a) (hA : A ≠ 0) : (invp p (lc a) : ZMod p) * A.leadingCoeff = 1 := by
  have hlead := ha.leadingCoeff_eq hp.pos ca hA
  have hlc : lc a ≠ 0 := fun h0 => hA (leadingCoeff_eq_zero.1 (by rw [hlead, h0, Nat.cast_zero]))
  have hinv : mulp p (invp p (lc a)) (lc a) = 1 :=
    mulp_invp_self hp hlt hlc (by rw [lc_eq_coeff]; exact ca.coeff_lt hp.pos _)
  rw [hlead, ← cast_mulp, hinv, Nat.cast_one]

end

/-! ### Division with remainder -/

/-- Settles O27: the loop of R194 starts with quotient 0 and remainder a, and leaves no slot from deg b up. -/
theorem divisionWithRemainder : Obligations.DivisionWithRemainder := by
  intro p a b A B hp hlt ca cb ha hb hB
  obtain ⟨hdeg, hpos⟩ := hb.degree_eq hp.pos cb hB
  have hdb : ∀ i, (trim b).length - 1 < i → coeff b i = 0 := fun i hi =>
    (length_trim_le_iff b _).1 le_rfl i (by omega)
  have hil : (coeff b ((trim b).length - 1) : ZMod p) * invp p (lc b) = 1 := by
    rw [← lc_eq_coeff, ← hb.leadingCoeff_eq hp.pos cb hB, mul_comm, hb.invp_lc_mul_leadingCoeff hp hlt cb hB]
  have hz : ∀ i, a.length - ((trim b).length - 1) + ((trim b).length - 1) ≤ i → coeff (trim a) i = 0 := fun i hi => by
    rw [coeff_trim, coeff_of_length_le (by omega)]
  obtain ⟨Q, R, hQ, hR, cQ, cR, hdiv, hrem⟩ :=
    divLoop_spec hp.pos hb hdb hil _ [] (trim a) 0 A Represents.zero ha.trim canonical_nil (ca.trim hp.pos) hz
  exact ⟨Q, R, hQ.trim, hR, cQ.trim hp.pos, cR, by rw [hdiv]; ring, hdeg ▸ hR.natDegree_lt hrem⟩

/-! ### The extended gcd -/

section
variable {p : Nat} {a b q r s t r0 r1 s0 s1 t0 t1 : Poly} {A B Q R R0 R1 : (ZMod p)[X]}

theorem xgcdLoop_of_trim_eq_nil (h : trim r1 = []) (n : Nat) (r0 s0 s1 t0 t1 : Poly) :
    xgcdLoop p n r0 r1 s0 s1 t0 t1 = (r0, s0, t0) := by
  cases n with
  | zero => rfl
  | succ n => rw [xgcdLoop, h]

theorem xgcdLoop_of_trim_ne_nil (h : trim r1 ≠ []) (n : Nat) (r0 s0 s1 t0 t1 : Poly) :
    xgcdLoop p (n + 1) r0 r1 s0 s1 t0 t1 =
      xgcdLoop p n r1 (pmod p r0 r1) s1 (psub p s0 (pmul p (pdiv p r0 r1) s1)) t1
        (psub p t0 (pmul p (pdiv p r0 r1) t1)) := by
  obtain ⟨d, ds, hd⟩ := List.exists_cons_of_ne_nil h
  rw [xgcdLoop, hd]
  rfl

/-- A row of the remainder sequence of R196: the canonical list r stands for R, and s and t for cofactors of R. -/
def IsBezoutRow (A B R : (ZMod p)[X]) (r s t : Poly) : Prop :=
  Represents p r R ∧ Canonical p r ∧ ∃ S T, Represents p s S ∧ Represents p t T ∧ R = S * A + T * B

theorem IsBezoutRow.left_input (ha : Represents p a A) (ca : Canonical p a) : IsBezoutRow A B A a [1 % p] [] :=
  ⟨ha, ca, 1, 0, Represents.one p, Represents.zero, by ring⟩

theorem IsBezoutRow.right_input (hb : Represents p b B) (cb : Canonical p b) : IsBezoutRow A B B b [] [1 % p] :=
  ⟨hb, cb, 0, 1, Represents.zero, Represents.one p, by ring⟩

/-- The next row is the row before the last minus the quotient times the last. -/
theorem IsBezoutRow.sub_mul (hp : 0 < p) (h0 : IsBezoutRow A B R0 r0 s0 t0) (h1 : IsBezoutRow A B R1 r1 s1 t1)
    (hq : Represents p q Q) (hr : Represents p r R) (cr : Canonical p r) (hdiv : R0 = Q * R1 + R) :
    IsBezoutRow A B R r (psub p s0 (pmul p q s1)) (psub p t0 (pmul p q t1)) := by
  obtain ⟨-, -, S0, T0, hs0, ht0, hR0⟩ := h0
  obtain ⟨-, -, S1, T1, hs1, ht1, hR1⟩ := h1
  refine ⟨hr, cr, _, _, hs0.sub hp (hq.mul hs1), ht0.sub hp (hq.mul ht1), ?_⟩
  calc R = R0 - Q * R1 := by rw [hdiv]; ring
    _ = (S0 - Q * S1) * A + (T0 - Q * T1) * B := by rw [hR0, hR1]; ring

/-- Enough iterations of the loop of R196 end in a row whose remainder divides the two that the loop began with. -/
theorem exists_row_of_xgcdLoop (hp : p.Prime) (hlt : p < 2 ^ 128) {n : Nat} (h0 : IsBezoutRow A B R0 r0 s0 t0)
    (h1 : IsBezoutRow A B R1 r1 s1 t1) (hn : (trim r1).length < n) :
    ∃ r s t R, xgcdLoop p n r0 r1 s0 s1 t0 t1 = (r, s, t) ∧ IsBezoutRow A B R r s t ∧ R ∣ R0 ∧ R ∣ R1 := by
  induction n generalizing R0 R1 r0 r1 s0 s1 t0 t1 with
  | zero => exact absurd hn (Nat.not_lt_zero _)
  | succ n ih =>
    have ⟨hr0, cr0, _⟩ := h0
    have ⟨hr1, cr1, _⟩ := h1
    by_cases hnil : trim r1 = []
    · have hR1 : R1 = 0 := (hr1.eq_zero_iff cr1).2 hnil
      exact ⟨r0, s0, t0, R0, xgcdLoop_of_trim_eq_nil hnil .., h0, dvd_rfl, hR1 ▸ dvd_zero R0⟩
    · have hR1 : R1 ≠ 0 := mt (hr1.eq_zero_iff cr1).1 hnil
      obtain ⟨Q, R, hq, hr, -, cr, hdiv, hdeg⟩ := divisionWithRemainder p r0 r1 R0 R1 hp hlt cr0 cr1 hr0 hr1 hR1
      have hshort := hr.length_trim_lt hp.pos cr hr1 cr1 hR1 hdeg
      obtain ⟨r', s', t', G, hloop, hrow, hG1, hG⟩ := ih h1 (h0.sub_mul hp.pos h1 hq hr cr hdiv) (by omega)
      exact ⟨r', s', t', G, (xgcdLoop_of_trim_ne_nil hnil ..).trans hloop, hrow,
        hdiv ▸ dvd_add (hG1.mul_left Q) hG, hG1⟩

/-- R196 scales the last row by the inverse of its remainder's leading coefficient. -/
theorem xgcd_eq_of_xgcdLoop (h : xgcdLoop p (b.length + 1) a b [1 % p] [] [] [1 % p] = (r, s, t)) :
    xgcd p a b = (pscale p (invp p (lc r)) r, pscale p (invp p (lc r)) s, pscale p (invp p (lc r)) t) := by
  rw [xgcd, h]

end

/-- Settles O28: the last remainder of the loop divides both inputs, so it is not 0, and the scaling makes it monic. -/
theorem extendedGcdIsGcd : Obligations.ExtendedGcdIsGcd := by
  intro p a b A B hp hlt ca cb ha hb hAB
  obtain ⟨r, s, t, R, hloop, ⟨hr, cr, S, T, hs, ht, hbezout⟩, hRA, hRB⟩ :=
    exists_row_of_xgcdLoop hp hlt (IsBezoutRow.left_input ha ca) (IsBezoutRow.right_input hb cb)
      (Nat.lt_succ_of_le (length_trim_le b))
  have hR : R ≠ 0 := by
    rintro rfl
    exact hAB ⟨zero_dvd_iff.1 hRA, zero_dvd_iff.1 hRB⟩
  have hinv := hr.invp_lc_mul_leadingCoeff hp hlt cr hR
  have hunit : IsUnit (C (invp p (lc r) : ZMod p)) := isUnit_C.2 (IsUnit.of_mul_eq_one _ hinv)
  rw [xgcd_eq_of_xgcdLoop hloop]
  refine ⟨_, _, _, hr.scale _, hs.scale _, ht.scale _, monic_C_mul_of_mul_leadingCoeff_eq_one hinv,
    hunit.mul_left_dvd.2 hRA, hunit.mul_left_dvd.2 hRB, ?_⟩
  rw [hbezout]
  ring

end Sys2Proof.Machine

/-! The statements about the divisor unit: StrictOK and NormOK on the registers (R231, R233), membership as
divisibility (R232), and the commands DID, DCHK, DNORM, MOVRA and MOVRB (R235 to R239). -/

namespace Sys2Proof.Machine

open Polynomial

/-! ### Degrees -/

/-- A degree bounds the nonzero slots (R199). -/
theorem deg_le_iff {a : Poly} {d : Int} (hd : -1 ≤ d) : deg a ≤ d ↔ ∀ i : Nat, d < i → coeff a i = 0 := by
  have hlen : deg a ≤ d ↔ (trim a).length ≤ (d + 1).toNat := by
    unfold deg
    omega
  rw [hlen, length_trim_le_iff]
  exact forall_congr' fun i => imp_congr_left (by omega)

theorem neg_one_le_deg (a : Poly) : -1 ≤ deg a := by
  unfold deg
  omega

theorem deg_lt_length (a : Poly) : deg a < a.length := by
  have := length_trim_le a
  unfold deg
  omega

theorem lc_eq_coeff_deg (a : Poly) : lc a = coeff a (deg a).toNat := by
  rw [lc_eq_coeff, show (deg a).toNat = (trim a).length - 1 by unfold deg; omega]

theorem lc_ne_zero_iff (a : Poly) : lc a ≠ 0 ↔ 0 ≤ deg a := by
  have hnil : trim a = [] ↔ ¬ 0 ≤ deg a := by
    rw [← List.length_eq_zero_iff, deg]
    omega
  constructor
  · intro hlc
    by_contra hneg
    exact hlc (by rw [lc, hnil.2 hneg]; rfl)
  · exact fun hpos => trim_getLast a fun h => hnil.1 h hpos

/-- The exact degree of a list: no nonzero slot above it and, unless the list stands for 0, a nonzero slot at it. -/
theorem deg_eq_iff {a : Poly} {d : Int} (hd : -1 ≤ d) :
    deg a = d ↔ (∀ i : Nat, d < i → coeff a i = 0) ∧ (d = -1 ∨ coeff a d.toNat ≠ 0) := by
  rw [← deg_le_iff hd]
  constructor
  · rintro rfl
    refine ⟨le_rfl, or_iff_not_imp_left.2 fun hne => ?_⟩
    rw [← lc_eq_coeff_deg, lc_ne_zero_iff]
    omega
  · rintro ⟨hle, htop⟩
    refine le_antisymm hle (not_lt.1 fun hlt => ?_)
    have := neg_one_le_deg a
    rcases htop with rfl | htop
    · omega
    · exact htop ((deg_le_iff (d := d - 1) (by omega)).1 (by omega) _ (by omega))

/-- The degree depends on the slots only. -/
theorem deg_congr {a b : Poly} (h : ∀ i, coeff a i = coeff b i) : deg a = deg b := by
  rw [deg_eq_iff (neg_one_le_deg b), h]
  simp only [h]
  exact (deg_eq_iff (neg_one_le_deg b)).1 rfl

/-! ### The structural checks on the registers -/

theorem DivRegs.degreesLegal_iff (D : DivRegs) :
    D.degreesLegal = true ↔ (D.du = 0 ∨ D.du = 1 ∨ D.du = 2) ∧ (D.dv = -1 ∨ D.dv = 0 ∨ D.dv = 1) := by
  simp [DivRegs.degreesLegal]

theorem DivRegs.reduced_iff (p : Nat) (D : DivRegs) : D.reduced p = true ↔ Canonical p D.u ∧ Canonical p D.v := by
  simp only [DivRegs.reduced, Canonical, Bool.and_eq_true, List.all_eq_true, decide_eq_true_eq]

theorem zeroAbove_iff (a : Poly) (d : Int) (n : Nat) :
    zeroAbove a d (n + 1) = true ↔ ∀ i : Nat, d < i → i ≤ n → coeff a i = 0 := by
  simp only [zeroAbove, List.all_eq_true, List.mem_range, Nat.lt_succ_iff, Bool.or_eq_true, decide_eq_true_eq, beq_iff_eq]
  refine forall_congr' fun i => ?_
  rw [← not_lt (a := d), or_iff_not_imp_left, not_not]
  exact imp.swap

theorem coeffAt_of_nonneg (a : Poly) {d : Int} (hd : 0 ≤ d) : coeffAt a d = coeff a d.toNat := if_neg (not_lt.2 hd)

/-- StrictOK in the terms of R231. -/
theorem strictOK_iff (p : Nat) (D : DivRegs) :
    strictOK p D = true ↔
      (D.du = 0 ∨ D.du = 1 ∨ D.du = 2) ∧ ((D.dv = -1 ∨ D.dv = 0 ∨ D.dv = 1) ∧ D.dv < D.du) ∧
      (Canonical p D.u ∧ Canonical p D.v) ∧
      (∀ i : Nat, D.du < i → i ≤ 2 → coeff D.u i = 0) ∧ (∀ i : Nat, D.dv < i → i ≤ 1 → coeff D.v i = 0) ∧
      coeff D.u D.du.toNat = 1 ∧ (D.dv = -1 ∨ coeff D.v D.dv.toNat ≠ 0) := by
  simp only [strictOK, Bool.and_eq_true, Bool.or_eq_true, decide_eq_true_eq, beq_iff_eq, bne_iff_ne, D.degreesLegal_iff,
    D.reduced_iff, zeroAbove_iff, and_assoc]
  refine and_congr_right fun hdu => and_congr_right fun hdv => ?_
  have hv : (D.dv = -1 ∨ coeffAt D.v D.dv ≠ 0) ↔ (D.dv = -1 ∨ coeff D.v D.dv.toNat ≠ 0) :=
    or_congr_right' fun hne => by rw [coeffAt_of_nonneg _ (by omega)]
  rw [coeffAt_of_nonneg D.u (by omega), hv]

/-- NormOK in the terms of R233. -/
theorem normOK_iff (p : Nat) (D : DivRegs) :
    normOK p D = true ↔
      ((D.du = 0 ∨ D.du = 1 ∨ D.du = 2) ∧ (D.dv = -1 ∨ D.dv = 0 ∨ D.dv = 1)) ∧
      (Canonical p D.u ∧ Canonical p D.v) ∧
      (∀ i : Nat, D.du < i → i ≤ 2 → coeff D.u i = 0) ∧ (∀ i : Nat, D.dv < i → i ≤ 1 → coeff D.v i = 0) ∧
      coeff D.u D.du.toNat ≠ 0 := by
  simp only [normOK, Bool.and_eq_true, bne_iff_ne, D.degreesLegal_iff, D.reduced_iff, zeroAbove_iff, and_assoc]
  refine and_congr_right fun hdu => ?_
  rw [coeffAt_of_nonneg D.u (by omega)]

/-- Settles O21: the check's parts, and `coeffAt` at a legal degree is the slot. -/
theorem strictOKMeansReducedForm : Obligations.StrictOKMeansReducedForm := strictOK_iff

/-- Settles O22: as for StrictOK, without a comparison of the two degrees. -/
theorem normOKMeansStructure : Obligations.NormOKMeansStructure := normOK_iff

/-! ### The commands -/

theorem needParams_of_noParams {s : State} (hprm : s.prm = false) : needParams s = some .noParams :=
  (needParams_eq_some_iff s .noParams).2 ⟨hprm, rfl⟩

theorem dnormChecks_of_noParams {s : State} (hprm : s.prm = false) : dnormChecks s = some .noParams := by
  rw [dnormChecks, needParams_of_noParams hprm]

/-- A divisor that is not NormOK raises BAD_DIVISOR (R237). -/
theorem dnormChecks_of_not_normOK {s : State} (hprm : s.prm = true) (hnorm : normOK s.p s.a = false) :
    dnormChecks s = some .badDivisor := by
  rw [dnormChecks, (needParams_eq_none_iff s).2 hprm]
  exact if_neg (by rw [hnorm]; exact Bool.false_ne_true)

/-- For a prime p DNORM writes the normalized divisor (R237). -/
theorem dnormEffect_of_prime {s : State} (hp : s.p.Prime) :
    dnormEffect s = writeDiv (normalize s.p s.a).1 (normalize s.p s.a).2 s :=
  if_pos ((primeP_iff s.p).2 hp)

/-- For a p that is not prime DNORM writes a draw (R15, R237). -/
theorem dnormEffect_of_not_prime {s : State} (hp : ¬ s.p.Prime) : dnormEffect s = drawR s :=
  if_neg (mt (primeP_iff s.p).1 hp)

/-- The registers that WriteDiv writes for the identity divisor (R14, R235). -/
theorem identity_eq : DivRegs.identity = ⟨1, 0, 0, 0, 0, 0x00000000, 0xFFFFFFFF⟩ := by decide

/-- Settles O17: the registers of the pair (1, 0), the degree of 0 being -1. -/
theorem didFollowsRule : Obligations.DidFollowsRule :=
  ⟨decode_encode .did, fun s =>
    exec_of_pass_of_no_hooks (i := .did) rfl (congrArg (fun D => ({ s with r := D } : State)) identity_eq) rfl⟩

/-- Settles O20: the moves check nothing and copy R as stored. -/
theorem divisorMovesFollowRules : Obligations.DivisorMovesFollowRules :=
  ⟨decode_encode .movra, decode_encode .movrb, fun _ =>
    ⟨exec_of_pass_of_no_hooks (i := .movra) rfl rfl rfl, exec_of_pass_of_no_hooks (i := .movrb) rfl rfl rfl⟩⟩

/-- Settles O18: the only check is NO_PARAMS, and the bit that is written is the conjunction of the two predicates. -/
theorem dchkFollowsRule : Obligations.DchkFollowsRule :=
  ⟨decode_encode .dchk, fun s =>
    ⟨fun hprm => exec_of_fault (i := .dchk) (needParams_of_noParams hprm), fun hprm =>
      ⟨s.validDivisor s.a, exec_of_pass_of_no_hooks (i := .dchk) rfl rfl ((needParams_eq_none_iff s).2 hprm),
        by rw [State.validDivisor, Bool.and_eq_true]⟩⟩⟩

/-- Settles O19, a clause for each check and each of the two effects. -/
theorem dnormFollowsRule : Obligations.DnormFollowsRule := by
  refine ⟨decode_encode .dnorm, fun s => ⟨fun hprm => ?_, fun hprm hnorm => ?_, fun hprm hnorm hp => ?_,
    fun hprm hnorm hp => ?_⟩⟩
  · exact exec_of_fault (i := .dnorm) (dnormChecks_of_noParams hprm)
  · exact exec_of_fault (i := .dnorm) (dnormChecks_of_not_normOK hprm hnorm)
  · exact exec_of_pass_of_no_hooks (i := .dnorm) rfl (dnormEffect_of_prime hp)
      ((dnormChecks_eq_none_iff s).2 ⟨hprm, hnorm⟩)
  · exact exec_of_pass_of_no_hooks (i := .dnorm) rfl (dnormEffect_of_not_prime hp)
      ((dnormChecks_eq_none_iff s).2 ⟨hprm, hnorm⟩)

/-! ### Reduced divisors -/

/-- The exact degree of a list of `n + 1` slots, as the checks look at it: no slot past the last is read. -/
theorem deg_eq_iff_of_length_le {a : Poly} {d : Int} {n : Nat} (hd : -1 ≤ d) (hlen : a.length ≤ n + 1) :
    deg a = d ↔ (∀ i : Nat, d < i → i ≤ n → coeff a i = 0) ∧ (d = -1 ∨ coeff a d.toNat ≠ 0) := by
  rw [deg_eq_iff hd]
  refine and_congr_left fun _ => forall₂_congr fun i _ => ⟨fun h _ => h, fun h => ?_⟩
  by_cases hi : i ≤ n
  · exact h hi
  · exact coeff_of_length_le (by omega)

/-- StrictOK in terms of the lists: canonical coefficients, exact stored degrees with dv < du, and u monic (R231). -/
theorem strictOK_iff_deg (p : Nat) (D : DivRegs) :
    strictOK p D = true ↔
      Canonical p D.u ∧ Canonical p D.v ∧ deg D.u = D.du ∧ deg D.v = D.dv ∧ deg D.v < deg D.u ∧ lc D.u = 1 := by
  rw [strictOK_iff]
  constructor
  · rintro ⟨hdu, ⟨hdv, hlt⟩, ⟨cu, cv⟩, hu, hv, hmonic, hvtop⟩
    have hdegu : deg D.u = D.du := (deg_eq_iff_of_length_le (by omega) le_rfl).2 ⟨hu, .inr (by omega)⟩
    have hdegv : deg D.v = D.dv := (deg_eq_iff_of_length_le (by omega) le_rfl).2 ⟨hv, hvtop⟩
    exact ⟨cu, cv, hdegu, hdegv, by omega, by rw [lc_eq_coeff_deg, hdegu, hmonic]⟩
  · rintro ⟨cu, cv, hdegu, hdegv, hlt, hlc⟩
    have hu3 : deg D.u < 3 := deg_lt_length D.u
    have hv2 : deg D.v < 2 := deg_lt_length D.v
    have hv1 := neg_one_le_deg D.v
    obtain ⟨hu, -⟩ := (deg_eq_iff_of_length_le (by omega) (n := 2) le_rfl).1 hdegu
    obtain ⟨hv, hvtop⟩ := (deg_eq_iff_of_length_le (by omega) (n := 1) le_rfl).1 hdegv
    exact ⟨by omega, by omega, ⟨cu, cv⟩, hu, hv, by rw [← hdegu, ← lc_eq_coeff_deg, hlc], hvtop⟩

/-- What NormOK says of the lists: canonical coefficients and u of its exact stored degree, not 0 (R233). -/
theorem deg_of_normOK {p : Nat} {D : DivRegs} (h : normOK p D = true) :
    Canonical p D.u ∧ Canonical p D.v ∧ deg D.u = D.du ∧ 0 ≤ deg D.u := by
  obtain ⟨⟨hdu, -⟩, ⟨cu, cv⟩, hu, -, hutop⟩ := (normOK_iff p D).1 h
  have hdegu : deg D.u = D.du := (deg_eq_iff_of_length_le (by omega) le_rfl).2 ⟨hu, .inr hutop⟩
  exact ⟨cu, cv, hdegu, by omega⟩

/-- A reduced divisor passes the check of DNORM. -/
theorem normOK_of_strictOK {p : Nat} {D : DivRegs} (h : strictOK p D = true) : normOK p D = true := by
  obtain ⟨hdu, ⟨hdv, -⟩, hred, hu, hv, hmonic, -⟩ := (strictOK_iff p D).1 h
  exact (normOK_iff p D).2 ⟨⟨hdu, hdv⟩, hred, hu, hv, by rw [hmonic]; exact one_ne_zero⟩

/-! ### Division by a monic list -/

theorem invp_one {p : Nat} (hp : 1 < p) (hlt : p < 2 ^ 128) : invp p 1 = 1 := by
  rw [invp_eq p 1 hlt, one_pow, Nat.mod_eq_of_lt hp]

section
variable {p : Nat} {a b : Poly} {A B : (ZMod p)[X]}

/-- Two canonical lists that stand for one polynomial agree slot by slot. -/
theorem Represents.coeff_eq (hp : 0 < p) (ha : Represents p a A) (ca : Canonical p a) (hb : Represents p b A)
    (cb : Canonical p b) (i : Nat) : coeff a i = coeff b i := by
  have hmod := (ZMod.natCast_eq_natCast_iff' _ _ _).1 ((ha i).symm.trans (hb i))
  rwa [Nat.mod_eq_of_lt (ca.coeff_lt hp i), Nat.mod_eq_of_lt (cb.coeff_lt hp i)] at hmod

theorem Represents.degree_lt_degree_iff (hp : 0 < p) (ha : Represents p a A) (ca : Canonical p a)
    (hb : Represents p b B) (cb : Canonical p b) (hB : B ≠ 0) : A.degree < B.degree ↔ deg a < deg b := by
  obtain ⟨hdeg, hpos⟩ := hb.degree_eq hp cb hB
  rw [hdeg, ha.degree_lt_iff hp ca, deg, deg]
  omega

theorem Represents.monic (hp : 1 < p) (hb : Represents p b B) (cb : Canonical p b) (hlc : lc b = 1) : B.Monic := by
  have : Fact (1 < p) := ⟨hp⟩
  have hB : B ≠ 0 := hb.ne_zero (deg b).toNat (by rw [← lc_eq_coeff_deg, hlc, Nat.cast_one]; exact one_ne_zero)
  rw [Monic, hb.leadingCoeff_eq (by omega) cb hB, hlc, Nat.cast_one]

/-- The remainder of R194 by a monic list is the remainder in (Z/p)[x], for any modulus: 1 is its own inverse. -/
theorem represents_pmod (hp : 1 < p) (hlt : p < 2 ^ 128) (ha : Represents p a A) (ca : Canonical p a)
    (hb : Represents p b B) (cb : Canonical p b) (hlc : lc b = 1) :
    Represents p (pmod p a b) (A %ₘ B) ∧ Canonical p (pmod p a b) := by
  have : Fact (1 < p) := ⟨hp⟩
  have hp0 : 0 < p := by omega
  have hB := hb.monic hp cb hlc
  obtain ⟨hdeg, hpos⟩ := hb.degree_eq hp0 cb hB.ne_zero
  have hdb : ∀ i, (trim b).length - 1 < i → coeff b i = 0 := fun i hi =>
    (length_trim_le_iff b _).1 le_rfl i (by omega)
  have hil : (coeff b ((trim b).length - 1) : ZMod p) * invp p (lc b) = 1 := by
    rw [← lc_eq_coeff, hlc, invp_one hp hlt, Nat.cast_one, mul_one]
  have hz : ∀ i, a.length - ((trim b).length - 1) + ((trim b).length - 1) ≤ i → coeff (trim a) i = 0 := fun i hi => by
    rw [coeff_trim, coeff_of_length_le (by omega)]
  obtain ⟨Q, R, -, hR, -, cR, hdiv, hrem⟩ :=
    divLoop_spec hp0 hb hdb hil _ [] (trim a) 0 A Represents.zero ha.trim canonical_nil (ca.trim hp0) hz
  have huniq : A %ₘ B = R :=
    (div_modByMonic_unique Q R hB ⟨by linear_combination hdiv, hdeg ▸ hR.natDegree_lt hrem⟩).2
  exact ⟨huniq ▸ hR, cR⟩

/-- The remainder by a monic list is canonical and has a smaller degree. -/
theorem pmod_monic_spec (hp : 1 < p) (hlt : p < 2 ^ 128) (ca : Canonical p a) (cb : Canonical p b) (hlc : lc b = 1) :
    Canonical p (pmod p a b) ∧ deg (pmod p a b) < deg b := by
  have : Fact (1 < p) := ⟨hp⟩
  obtain ⟨A, ha⟩ := exists_represents p a
  obtain ⟨B, hb⟩ := exists_represents p b
  have hB := hb.monic hp cb hlc
  obtain ⟨hR, cR⟩ := represents_pmod hp hlt ha ca hb cb hlc
  exact ⟨cR, (hR.degree_lt_degree_iff (by omega) cR hb cb hB.ne_zero).1 (degree_modByMonic_lt A hB)⟩

/-- A list of smaller degree is its own remainder by a monic list. -/
theorem coeff_pmod_of_deg_lt (hp : 1 < p) (hlt : p < 2 ^ 128) (ca : Canonical p a) (cb : Canonical p b) (hlc : lc b = 1)
    (hdeg : deg a < deg b) (i : Nat) : coeff (pmod p a b) i = coeff a i := by
  have : Fact (1 < p) := ⟨hp⟩
  obtain ⟨A, ha⟩ := exists_represents p a
  obtain ⟨B, hb⟩ := exists_represents p b
  have hB := hb.monic hp cb hlc
  obtain ⟨hR, cR⟩ := represents_pmod hp hlt ha ca hb cb hlc
  rw [(modByMonic_eq_self_iff hB).2 ((ha.degree_lt_degree_iff (by omega) ca hb cb hB.ne_zero).2 hdeg)] at hR
  exact hR.coeff_eq (by omega) cR ha ca i

end

/-- Settles O23: u of a StrictOK divisor is monic, so the remainder that Member looks at is that of (Z/p)[x]. -/
theorem memberMeansDivisibility : Obligations.MemberMeansDivisibility := by
  intro p f h D F H U V _ hp3 hlt hstrict _ _ hF hH hU hV
  obtain ⟨cu, -, -, -, -, hlc⟩ := (strictOK_iff_deg p D).1 hstrict
  have hp1 : 1 < p := by omega
  have hp0 : 0 < p := by omega
  have hval := ((hV.mul hV).add (hH.mul hV)).sub hp0 hF
  obtain ⟨hR, cR⟩ := represents_pmod hp1 hlt hval (canonical_psub hp0 _ _) hU cu hlc
  rw [member, beq_iff_eq, ← hR.eq_zero_iff cR, modByMonic_eq_zero_iff_dvd (hU.monic hp1 cu hlc), sq]

/-! ### The registers of a pair -/

/-- A degree between -1 and 2 reads back from a degree register as it was written (R118). -/
theorem toInt_ofInt_deg {a : Poly} (h : deg a ≤ 2) : (BitVec.ofInt 32 (deg a)).toInt = deg a := by
  have := neg_one_le_deg a
  exact BitVec.toInt_ofInt_eq_self (by omega) (by omega) (by omega)

/-- A 128-bit register holds every value below 2^128. -/
theorem toNat_ofNat_fieldWord {x : Nat} (hx : x < 2 ^ 128) : (BitVec.ofNat 128 x : FieldWord).toNat = x :=
  (BitVec.toNat_ofNat x 128).trans (Nat.mod_eq_of_lt hx)

/-- WriteDiv stores u of degree 2 at most slot by slot (R234). -/
theorem coeff_ofPair_u {u : Poly} (v : Poly) (hlt : ∀ i, coeff u i < 2 ^ 128) (hdeg : deg u ≤ 2) (i : Nat) :
    coeff (DivRegs.ofPair u v).u i = coeff u i := by
  match i with
  | 0 => exact toNat_ofNat_fieldWord (hlt 0)
  | 1 => exact toNat_ofNat_fieldWord (hlt 1)
  | 2 => exact toNat_ofNat_fieldWord (hlt 2)
  | n + 3 => exact ((deg_le_iff (by omega)).1 hdeg (n + 3) (by omega)).symm

/-- WriteDiv stores v of degree 1 at most slot by slot (R234). -/
theorem coeff_ofPair_v (u : Poly) {v : Poly} (hlt : ∀ i, coeff v i < 2 ^ 128) (hdeg : deg v ≤ 1) (i : Nat) :
    coeff (DivRegs.ofPair u v).v i = coeff v i := by
  match i with
  | 0 => exact toNat_ofNat_fieldWord (hlt 0)
  | 1 => exact toNat_ofNat_fieldWord (hlt 1)
  | n + 2 => exact ((deg_le_iff (by omega)).1 hdeg (n + 2) (by omega)).symm

/-- The registers that WriteDiv writes for a reduced pair are StrictOK (R231, R234). -/
theorem strictOK_ofPair {p : Nat} {u v : Poly} (hp : 0 < p) (hlt : p < 2 ^ 128) (cu : Canonical p u)
    (cv : Canonical p v) (hlc : lc u = 1) (hdeg : deg v < deg u) (hu2 : deg u ≤ 2) :
    strictOK p (DivRegs.ofPair u v) = true := by
  have hcu := coeff_ofPair_u v (fun i => (cu.coeff_lt hp i).trans hlt) hu2
  have hcv := coeff_ofPair_v u (fun i => (cv.coeff_lt hp i).trans hlt) (by omega)
  have hdegu : deg (DivRegs.ofPair u v).u = deg u := deg_congr hcu
  have hdegv : deg (DivRegs.ofPair u v).v = deg v := deg_congr hcv
  refine (strictOK_iff_deg p _).2 ⟨.of_coeff fun i => ?_, .of_coeff fun i => ?_, ?_, ?_, ?_, ?_⟩
  · rw [hcu]; exact cu.coeff_lt hp i
  · rw [hcv]; exact cv.coeff_lt hp i
  · rw [hdegu]; exact (toInt_ofInt_deg hu2).symm
  · rw [hdegv]; exact (toInt_ofInt_deg (by omega)).symm
  · rw [hdegu, hdegv]; exact hdeg
  · rw [lc_eq_coeff_deg, hdegu, hcu, ← lc_eq_coeff_deg, hlc]

/-- The registers that WriteDiv writes depend on the slots of the two lists only. -/
theorem ofPair_congr {u u' v v' : Poly} (hu : ∀ i, coeff u i = coeff u' i) (hv : ∀ i, coeff v i = coeff v' i) :
    DivRegs.ofPair u v = DivRegs.ofPair u' v' := by
  simp only [DivRegs.ofPair, hu, hv, deg_congr hu, deg_congr hv]

/-- WriteDiv of the polynomials of a divisor set with exact stored degrees writes that set. -/
theorem ofPair_self {D : DivRegs} (hu : deg D.u = D.du) (hv : deg D.v = D.dv) : DivRegs.ofPair D.u D.v = D := by
  rw [DivRegs.ofPair, hu, hv]
  simp [DivRegs.u, DivRegs.v, DivRegs.du, DivRegs.dv]

/-! ### The normalization -/

/-- DNORM scales u as `pmonic` does where the stored degree of u is exact (R195, R237). -/
theorem normalize_eq {p : Nat} {D : DivRegs} (hdeg : deg D.u = D.du) (hpos : 0 ≤ deg D.u) :
    normalize p D = (pmonic p D.u, pmod p D.v (pmonic p D.u)) := by
  rw [normalize, pmonic, coeffAt_of_nonneg _ (by omega), ← hdeg, ← lc_eq_coeff_deg]

/-- For a prime p, `pmonic` of a list that does not stand for 0 is monic of the same degree (R195). -/
theorem pmonic_spec {p : Nat} {a : Poly} (hp : p.Prime) (hlt : p < 2 ^ 128) (ca : Canonical p a) (hpos : 0 ≤ deg a) :
    deg (pmonic p a) = deg a ∧ lc (pmonic p a) = 1 := by
  have htop : coeff (pmonic p a) (deg a).toNat = 1 := by
    rw [pmonic, coeff_pscale, ← lc_eq_coeff_deg]
    refine mulp_invp_self hp hlt ((lc_ne_zero_iff a).2 hpos) ?_
    rw [lc_eq_coeff_deg]
    exact ca.coeff_lt hp.pos _
  have hdeg : deg (pmonic p a) = deg a := by
    refine (deg_eq_iff (by omega)).2 ⟨fun i hi => ?_, .inr (by rw [htop]; exact one_ne_zero)⟩
    rw [pmonic, coeff_pscale, (deg_le_iff (by omega)).1 le_rfl i hi, mulp, Nat.mul_zero, Nat.zero_mod]
  exact ⟨hdeg, by rw [lc_eq_coeff_deg, hdeg, htop]⟩

/-- `pmonic` leaves a monic list as it is, for any modulus. -/
theorem coeff_pmonic_of_monic {p : Nat} {a : Poly} (hp : 1 < p) (hlt : p < 2 ^ 128) (ca : Canonical p a)
    (hlc : lc a = 1) (i : Nat) : coeff (pmonic p a) i = coeff a i := by
  rw [pmonic, coeff_pscale, hlc, invp_one hp hlt, mulp, Nat.one_mul, Nat.mod_eq_of_lt (ca.coeff_lt (by omega) i)]

/-- The R set that a completed DNORM leaves for a prime p (R237). -/
theorem r_of_exec_dnorm {s t : State} (hprm : s.prm = true) (hp : s.p.Prime) (hnorm : normOK s.p s.a = true)
    (h : exec .dnorm s = .next t) :
    t.r = DivRegs.ofPair (pmonic s.p s.a.u) (pmod s.p s.a.v (pmonic s.p s.a.u)) := by
  obtain ⟨-, -, hdeg, hpos⟩ := deg_of_normOK hnorm
  obtain ⟨-, hrule⟩ := dnormFollowsRule
  obtain ⟨-, -, hprime, -⟩ := hrule s
  cases (hprime hprm hnorm hp).symm.trans h
  exact congrArg (fun N : Poly × Poly => DivRegs.ofPair N.1 N.2) (normalize_eq hdeg hpos)

/-- Settles O24: u' is monic of the degree of u, and v' is a remainder by it. -/
theorem dnormResultIsStrictOK : Obligations.DnormResultIsStrictOK := by
  intro s t hprm hp hnorm h
  have hlt : s.p < 2 ^ 128 := s.params.p.isLt
  obtain ⟨cu, cv, -, hpos⟩ := deg_of_normOK hnorm
  obtain ⟨hdeg, hlc⟩ := pmonic_spec hp hlt cu hpos
  have cu' : Canonical s.p (pmonic s.p s.a.u) := canonical_pscale hp.pos _ _
  have hu3 : deg s.a.u < 3 := deg_lt_length s.a.u
  obtain ⟨cv', hdeg'⟩ := pmod_monic_spec hp.one_lt hlt cv cu' hlc
  rw [r_of_exec_dnorm hprm hp hnorm h]
  exact strictOK_ofPair hp.pos hlt cu' cv' hlc hdeg' (by omega)

/-- Settles O25: scaling by the inverse of 1 and the remainder of a v of smaller degree change no slot. -/
theorem dnormKeepsReducedDivisor : Obligations.DnormKeepsReducedDivisor := by
  intro s t hprm hp hstrict h
  have hlt : s.p < 2 ^ 128 := s.params.p.isLt
  have hnorm := normOK_of_strictOK hstrict
  obtain ⟨cu, cv, hdu, hdv, hdeg, hlc⟩ := (strictOK_iff_deg s.p s.a).1 hstrict
  obtain ⟨-, -, -, hpos⟩ := deg_of_normOK hnorm
  obtain ⟨hdeg', hlc'⟩ := pmonic_spec hp hlt cu hpos
  have hu := coeff_pmonic_of_monic hp.one_lt hlt cu hlc
  have hv := coeff_pmod_of_deg_lt hp.one_lt hlt cv (canonical_pscale hp.pos _ _) hlc' (hdeg'.symm ▸ hdeg)
  calc t.r = DivRegs.ofPair (pmonic s.p s.a.u) (pmod s.p s.a.v (pmonic s.p s.a.u)) := r_of_exec_dnorm hprm hp hnorm h
    _ = DivRegs.ofPair s.a.u s.a.v := ofPair_congr hu hv
    _ = s.a := ofPair_self hdu hdv

end Sys2Proof.Machine

/-! The statements about the group commands DADD and DDBL: the checks and the two effects of a group command (R265 to
R269), said once for every list of operand sets. -/

namespace Sys2Proof.Machine

/-! ### The checks -/

theorem groupChecks_of_noParams {s : State} (hprm : s.prm = false) (Ds : List DivRegs) :
    groupChecks Ds s = some .noParams := by
  rw [groupChecks, needParams_of_noParams hprm]

/-- An operand set that is not StrictOK raises BAD_DIVISOR, on the curve or not (R265). -/
theorem groupChecks_of_not_strict {Ds : List DivRegs} {s : State} (hprm : s.prm = true)
    (hstrict : ¬ ∀ D ∈ Ds, strictOK s.p D = true) : groupChecks Ds s = some .badDivisor := by
  rw [← List.all_eq_true, Bool.not_eq_true] at hstrict
  rw [groupChecks, (needParams_eq_none_iff s).2 hprm]
  exact if_pos (by rw [hstrict]; rfl)

/-- With CHKEN sampled 1 a StrictOK operand set that is not on the curve raises NOT_ON_CURVE (R265). -/
theorem groupChecks_of_not_member {Ds : List DivRegs} {s : State} (hprm : s.prm = true)
    (hstrict : ∀ D ∈ Ds, strictOK s.p D = true) (hchk : s.chkSnapshot = true)
    (hcurve : ¬ ∀ D ∈ Ds, member s.p s.params.f s.params.h D = true) : groupChecks Ds s = some .notOnCurve := by
  rw [← List.all_eq_true] at hstrict
  rw [← List.all_eq_true, Bool.not_eq_true] at hcurve
  rw [groupChecks, (needParams_eq_none_iff s).2 hprm]
  simp [hstrict, hchk, hcurve]

/-! ### The valid domain -/

/-- The test of the model decides the valid domain of R19. -/
theorem valid_iff (Ds : List DivRegs) (s : State) : s.valid Ds = true ↔ s.InValidDomain Ds := by
  simp only [State.valid, State.InValidDomain, State.validDivisor, Bool.and_eq_true, List.all_eq_true, primeP_iff,
    and_assoc]

/-- In the valid domain a group command writes the reference result (R234, R266). -/
theorem groupEffect_of_valid {Ds : State → List DivRegs} {s : State} (hvalid : s.InValidDomain (Ds s))
    (result : State → Mumford) :
    groupEffect Ds result s = { s with r := DivRegs.ofPair (result s).1 (result s).2 } :=
  if_pos ((valid_iff (Ds s) s).2 hvalid)

/-- Outside the valid domain a group command writes a draw (R15, R269). -/
theorem groupEffect_of_not_valid {Ds : State → List DivRegs} {s : State} (hvalid : ¬ s.InValidDomain (Ds s))
    (result : State → Mumford) :
    groupEffect Ds result s = { s with r := DivRegs.draw s.draws, draws := s.draws + 1 } :=
  if_neg (mt (valid_iff (Ds s) s).1 hvalid)

/-! ### The commands -/

/-- All that a group command that reads the sets `Ds` can do, `result` being its reference result (R265 to R269). -/
theorem exec_of_groupChecks {i : Instr} {Ds : State → List DivRegs} {result : State → Mumford}
    (hchecks : checksOf i = fun s => groupChecks (Ds s) s) (heffect : effectOf i = groupEffect Ds result) (s : State) :
    let strict := ∀ D ∈ Ds s, strictOK s.p D = true
    let onCurve := ∀ D ∈ Ds s, member s.p s.params.f s.params.h D = true
    (s.prm = false → exec i s = .next (s.faultedWith .noParams)) ∧
    (s.prm = true → ¬ strict → exec i s = .next (s.faultedWith .badDivisor)) ∧
    (s.prm = true → strict → s.chkSnapshot = true → ¬ onCurve → exec i s = .next (s.faultedWith .notOnCurve)) ∧
    (s.prm = true → strict → s.InValidDomain (Ds s) →
      exec i s = .next (({ s with r := DivRegs.ofPair (result s).1 (result s).2 } :
        State).completedWith i (hookSeq s.kbits i))) ∧
    (s.prm = true → strict → (s.chkSnapshot = true → onCurve) → ¬ s.InValidDomain (Ds s) →
      exec i s = .next (({ s with r := DivRegs.draw s.draws, draws := s.draws + 1 } :
        State).completedWith i (hookSeq s.kbits i))) := by
  have hcheck : checksOf i s = groupChecks (Ds s) s := congrFun hchecks s
  have hpass (hprm : s.prm = true) (hstrict : ∀ D ∈ Ds s, strictOK s.p D = true)
      (hcurve : s.chkSnapshot = true → ∀ D ∈ Ds s, member s.p s.params.f s.params.h D = true) :
      exec i s = .next ((groupEffect Ds result s).completedWith i (hookSeq s.kbits i)) := by
    rw [exec_of_pass (hcheck.trans ((groupChecks_eq_none_iff (Ds s) s).2 ⟨hprm, hstrict, hcurve⟩)), heffect]
  refine ⟨fun hprm => ?_, fun hprm hstrict => ?_, fun hprm hstrict hchk hcurve => ?_,
    fun hprm hstrict hvalid => ?_, fun hprm hstrict hcurve hvalid => ?_⟩
  · exact exec_of_fault (hcheck.trans (groupChecks_of_noParams hprm (Ds s)))
  · exact exec_of_fault (hcheck.trans (groupChecks_of_not_strict hprm hstrict))
  · exact exec_of_fault (hcheck.trans (groupChecks_of_not_member hprm hstrict hchk hcurve))
  · have ⟨_, _, hdivisors⟩ := hvalid
    rw [hpass hprm hstrict fun _ D hD => (hdivisors D hD).2, groupEffect_of_valid hvalid]
  · rw [hpass hprm hstrict hcurve, groupEffect_of_not_valid hvalid]

/-- Settles O29: a group command that reads A and B, with the four events of one group operation. -/
theorem daddFollowsRule : Obligations.DaddFollowsRule := by
  refine ⟨decode_encode .dadd, fun s => ?_⟩
  have hrule := exec_of_groupChecks (i := .dadd) rfl rfl s
  simp only [List.forall_mem_cons, List.not_mem_nil, false_imp_iff, implies_true, and_true] at hrule
  exact hrule

/-- Settles O30: a group command that reads A alone, with the events of DADD. -/
theorem ddblFollowsRule : Obligations.DdblFollowsRule := by
  refine ⟨decode_encode .ddbl, fun s => ?_⟩
  have hrule := exec_of_groupChecks (i := .ddbl) rfl rfl s
  simp only [List.forall_mem_singleton] at hrule
  exact hrule

end Sys2Proof.Machine

/-! The reference result of a group operation (R260 to R264): what composition and reduction compute on the lists of
two divisors, as algebra in (Z/p)[x], for divisors on the curve and off it. -/

namespace Sys2Proof.Machine

open Polynomial

/-! ### Trimmed lists -/

/-- Trimming looks at the slots only. -/
theorem trim_congr {a b : Poly} (h : ∀ i, coeff a i = coeff b i) : trim a = trim b := by
  have hlen : (trim a).length = (trim b).length := by
    have hdeg := deg_congr h
    unfold deg at hdeg
    omega
  refine List.ext_getElem hlen fun i ha hb => ?_
  have hi : coeff (trim a) i = coeff (trim b) i := by rw [coeff_trim, coeff_trim, h]
  rwa [coeff, coeff, List.getD_eq_getElem _ _ ha, List.getD_eq_getElem _ _ hb] at hi

@[simp] theorem trim_trim (a : Poly) : trim (trim a) = trim a := trim_congr (coeff_trim a)

theorem trim_pdiv (p : Nat) (a b : Poly) : trim (pdiv p a b) = pdiv p a b := trim_trim _

theorem trim_divLoop (p : Nat) (b : Poly) (il db n : Nat) (q r : Poly) (hr : trim r = r) :
    trim (divLoop p b il db n q r).2 = (divLoop p b il db n q r).2 := by
  induction n generalizing q r with
  | zero => exact hr
  | succ s ih => exact ih _ _ (trim_trim _)

theorem trim_pmod (p : Nat) (a b : Poly) : trim (pmod p a b) = pmod p a b :=
  trim_divLoop p b _ _ _ [] _ (trim_trim a)

/-- The list of a polynomial: canonical coefficients and no leading zero slot (R190, R199). -/
structure IsListOf (p : Nat) (a : Poly) (A : (ZMod p)[X]) : Prop where
  represents : Represents p a A
  canonical : Canonical p a
  trimmed : trim a = a

section
variable {p : Nat} {a b : Poly} {A B : (ZMod p)[X]}

/-- A polynomial has one list. -/
theorem IsListOf.eq (hp : 0 < p) (ha : IsListOf p a A) (hb : IsListOf p b A) : a = b := by
  rw [← ha.trimmed, ← hb.trimmed]
  exact trim_congr (ha.represents.coeff_eq hp ha.canonical hb.represents hb.canonical)

theorem IsListOf.of_trim (hp : 0 < p) (ha : Represents p a A) (ca : Canonical p a) : IsListOf p (trim a) A :=
  ⟨ha.trim, ca.trim hp, trim_trim a⟩

theorem IsListOf.zero : IsListOf p [] 0 := ⟨Represents.zero, canonical_nil, rfl⟩

theorem IsListOf.one (hp : 1 < p) : IsListOf p [1] 1 := by
  refine ⟨by simpa [Nat.mod_eq_of_lt hp] using Represents.one p, fun c hc => ?_, rfl⟩
  rwa [List.mem_singleton.1 hc]

/-- The degree of a list that does not stand for 0 (R13). -/
theorem Represents.deg_eq (hp : 0 < p) (ha : Represents p a A) (ca : Canonical p a) (hA : A ≠ 0) :
    deg a = A.natDegree := by
  obtain ⟨hdeg, hpos⟩ := ha.degree_eq hp ca hA
  rw [natDegree_eq_of_degree_eq_some hdeg, deg]
  omega

/-- The list of a monic polynomial has leading coefficient 1. -/
theorem Represents.lc_eq_one (hp : 1 < p) (ha : Represents p a A) (ca : Canonical p a) (hA : A.Monic) : lc a = 1 := by
  have : Fact (1 < p) := ⟨hp⟩
  have hcast : ((lc a : Nat) : ZMod p) = (1 : Nat) := by
    rw [← ha.leadingCoeff_eq (by omega) ca hA.ne_zero, hA.leadingCoeff, Nat.cast_one]
  have hmod := (ZMod.natCast_eq_natCast_iff' _ _ _).1 hcast
  rwa [Nat.mod_eq_of_lt (by rw [lc_eq_coeff]; exact ca.coeff_lt (by omega) _), Nat.mod_eq_of_lt hp] at hmod

/-- Division by the list of a monic polynomial is Mathlib's (R194). -/
theorem isListOf_pdiv_pmod (hp : p.Prime) (hlt : p < 2 ^ 128) (ha : Represents p a A) (ca : Canonical p a)
    (hb : Represents p b B) (cb : Canonical p b) (hB : B.Monic) :
    IsListOf p (pdiv p a b) (A /ₘ B) ∧ IsListOf p (pmod p a b) (A %ₘ B) := by
  have : Fact p.Prime := ⟨hp⟩
  obtain ⟨Q, R, hQ, hR, cQ, cR, hdiv, hdeg⟩ := divisionWithRemainder p a b A B hp hlt ca cb ha hb hB.ne_zero
  obtain ⟨hq, hr⟩ := div_modByMonic_unique (f := A) Q R hB ⟨by linear_combination -hdiv, hdeg⟩
  exact ⟨⟨hq ▸ hQ, cQ, trim_pdiv p a b⟩, ⟨hr ▸ hR, cR, trim_pmod p a b⟩⟩

/-- `pmonic` scales by the inverse of the leading coefficient (R195). -/
theorem isListOf_pmonic (hp : p.Prime) (hlt : p < 2 ^ 128) (ha : Represents p a A) (ca : Canonical p a) (hA : A ≠ 0) :
    ∃ A', IsListOf p (pmonic p a) A' ∧ A'.Monic ∧ C A.leadingCoeff * A' = A := by
  have hinv := ha.invp_lc_mul_leadingCoeff hp hlt ca hA
  refine ⟨_, ⟨ha.scale _, canonical_pscale hp.pos _ _, trim_trim _⟩, monic_C_mul_of_mul_leadingCoeff_eq_one hinv, ?_⟩
  rw [← mul_assoc, ← C_mul, mul_comm A.leadingCoeff, hinv, C_1, one_mul]

end

/-! ### The algebra of composition and reduction -/

section
variable {p : Nat} [Fact p.Prime] {F H U1 V1 U2 V2 U V D S1 S2 S3 : (ZMod p)[X]}

/-- A monic divisor divides without remainder. -/
theorem divByMonic_mul_self {A B : (ZMod p)[X]} (hB : B.Monic) (h : B ∣ A) : A /ₘ B * B = A := by
  have hdiv := modByMonic_add_div A B
  rwa [(modByMonic_eq_zero_iff_dvd hB).2 h, zero_add, mul_comm] at hdiv

/-- The division by d in R260 is exact for a divisor on the curve (R261): modulo D, V2 is -V1 - H, so that V1·V2 + F is
F - H·V1 - V1^2. -/
theorem dvd_numerator_of_composition (h1 : D ∣ U1) (h2 : D ∣ U2) (h3 : D ∣ V1 + V2 + H)
    (hcurve : U1 ∣ V1 ^ 2 + H * V1 - F) :
    D ∣ S1 * U1 * V2 + S2 * U2 * V1 + S3 * (V1 * V2 + F) := by
  have hsum : D ∣ V1 * V2 + F := by
    rw [show V1 * V2 + F = V1 * (V1 + V2 + H) - (V1 ^ 2 + H * V1 - F) by ring]
    exact dvd_sub (h3.mul_left V1) (h1.trans hcurve)
  have h1' : D ∣ S1 * U1 * V2 := (h1.mul_left S1).mul_right V2
  have h2' : D ∣ S2 * U2 * V1 := (h2.mul_left S2).mul_right V1
  exact dvd_add (dvd_add h1' h2') (hsum.mul_left S3)

/-- The degree of the numerator of the reduction step (R263): 6 where V has degree 3, and else that of F. -/
theorem natDegree_numerator_of_reduction (hF : F.natDegree = 5) (hH : H.natDegree ≤ 2) (hV : V.natDegree ≤ 3) :
    (F - H * V - V ^ 2).natDegree = if V.natDegree = 3 then 6 else 5 := by
  have hHV : (H * V).natDegree ≤ H.natDegree + V.natDegree := natDegree_mul_le
  have hV2 : (V ^ 2).natDegree = 2 * V.natDegree := natDegree_pow V 2
  split
  · have hFHV : (F - H * V).natDegree ≤ 5 := (natDegree_sub_le _ _).trans (by omega)
    rw [natDegree_sub_eq_right_of_natDegree_lt (by omega)]
    omega
  · have hFHV : (F - H * V).natDegree = 5 := by rw [natDegree_sub_eq_left_of_natDegree_lt (by omega), hF]
    rw [natDegree_sub_eq_left_of_natDegree_lt (by omega), hFHV]

/-- One reduction step suffices: from degree 3 or 4 its quotient has degree 1 or 2 (R263). -/
theorem natDegree_quotient_of_reduction (hF : F.natDegree = 5) (hH : H.natDegree ≤ 2) (hU : U.Monic)
    (hVU : V.degree < U.degree) (hlo : 2 < U.natDegree) (hhi : U.natDegree ≤ 4) :
    0 < ((F - H * V - V ^ 2) /ₘ U).natDegree ∧ ((F - H * V - V ^ 2) /ₘ U).natDegree ≤ 2 := by
  have hV : V.natDegree < U.natDegree := by
    rcases eq_or_ne V 0 with rfl | hV0
    · rw [natDegree_zero]
      omega
    · exact natDegree_lt_natDegree hV0 hVU
  rw [natDegree_divByMonic _ hU, natDegree_numerator_of_reduction hF hH (by omega)]
  split <;> omega

end

/-! ### Curves and pairs -/

/-- The lists f and h stand for the polynomials of a curve of the degrees that a checked parameter set has (R144). -/
structure IsCurve (p : Nat) (f h : Poly) (F H : (ZMod p)[X]) : Prop where
  f_represents : Represents p f F
  f_canonical : Canonical p f
  h_represents : Represents p h H
  h_canonical : Canonical p h
  natDegree_f : F.natDegree = 5
  natDegree_h : H.natDegree ≤ 2

/-- The lists of a Mumford pair: U monic and deg V < deg U (R17). -/
structure IsMumford (p : Nat) (D : Mumford) (U V : (ZMod p)[X]) : Prop where
  u_list : IsListOf p D.1 U
  v_list : IsListOf p D.2 V
  monic : U.Monic
  degree_lt : V.degree < U.degree

section
variable {p : Nat} [Fact p.Prime] {f h : Poly} {D D' D1 D2 : Mumford} {F H U1 V1 U2 V2 U V : (ZMod p)[X]}

theorem IsMumford.of_lists {u v : Poly} (hu : IsListOf p u U) (hv : IsListOf p v V) (hU : U.Monic)
    (hVU : V.degree < U.degree) : IsMumford p (u, v) U V := ⟨hu, hv, hU, hVU⟩

theorem IsMumford.eq (hD : IsMumford p D U V) (hD' : IsMumford p D' U V) : D = D' :=
  have hp : p.Prime := Fact.out
  Prod.ext (hD.u_list.eq hp.pos hD'.u_list) (hD.v_list.eq hp.pos hD'.v_list)

theorem IsMumford.deg_eq (hD : IsMumford p D U V) : deg D.1 = U.natDegree :=
  have hp : p.Prime := Fact.out
  hD.u_list.represents.deg_eq hp.pos hD.u_list.canonical hD.monic.ne_zero

/-- The identity (R14). -/
theorem isMumford_one : IsMumford p ([1], []) 1 0 :=
  have hp : p.Prime := Fact.out
  ⟨.one hp.one_lt, .zero, monic_one, by simp⟩

/-- The extended gcd of a list that does not stand for 0 and another (R196). -/
theorem exists_xgcd {a b : Poly} {A B : (ZMod p)[X]} (hlt : p < 2 ^ 128) (ha : Represents p a A) (ca : Canonical p a)
    (hb : Represents p b B) (cb : Canonical p b) (hA : A ≠ 0) :
    ∃ G S T, Represents p (xgcd p a b).1 G ∧ Canonical p (xgcd p a b).1 ∧ Represents p (xgcd p a b).2.1 S ∧
      Represents p (xgcd p a b).2.2 T ∧ G.Monic ∧ G ∣ A ∧ G ∣ B ∧ G = S * A + T * B := by
  have hp : p.Prime := Fact.out
  obtain ⟨G, S, T, hG, hS, hT, hgcd⟩ := extendedGcdIsGcd p a b A B hp hlt ca cb ha hb fun h0 => hA h0.1
  exact ⟨G, S, T, hG, canonical_pscale hp.pos _ _, hS, hT, hgcd⟩

/-- What composition computes, on the curve or not, is a Mumford pair with U a divisor of U1·U2, and on the curve it is
Cantor's composition (R260, R261). -/
theorem exists_compose (hlt : p < 2 ^ 128) (hc : IsCurve p f h F H) (h1 : IsMumford p D1 U1 V1)
    (h2 : IsMumford p D2 U2 V2) :
    ∃ U V, IsMumford p (compose p f h D1 D2) U V ∧ U ∣ U1 * U2 ∧
      (U1 ∣ V1 ^ 2 + H * V1 - F → IsComposition F H U1 V1 U2 V2 U V) := by
  have hp : p.Prime := Fact.out
  obtain ⟨u1, v1⟩ := D1
  obtain ⟨u2, v2⟩ := D2
  obtain ⟨⟨hu1, cu1, -⟩, ⟨hv1, -, -⟩, mU1, -⟩ := h1
  obtain ⟨⟨hu2, cu2, -⟩, ⟨hv2, -, -⟩, mU2, -⟩ := h2
  obtain ⟨x, y, hx, hy, hcomp⟩ := compose_eq p f h u1 v1 u2 v2
  obtain ⟨G, E1, E2, hG, cG, hE1, hE2, mG, hG1, hG2, hbezout1⟩ := exists_xgcd hlt hu1 cu1 hu2 cu2 mU1.ne_zero
  rw [← hx] at hG cG hE1 hE2
  obtain ⟨D, C1, C2, hD, cD, hC1, hC2, mD, hDG, hD3, hbezout2⟩ :=
    exists_xgcd hlt hG cG ((hv1.add hv2).add hc.h_represents) (canonical_padd hp.pos _ _) mG.ne_zero
  rw [← hy] at hD cD hC1 hC2
  have hD1 : D ∣ U1 := hDG.trans hG1
  have hD2 : D ∣ U2 := hDG.trans hG2
  have mD2 : (D * D).Monic := mD.mul mD
  have hU : U1 * U2 /ₘ (D * D) * (D * D) = U1 * U2 := divByMonic_mul_self mD2 (mul_dvd_mul hD1 hD2)
  have mU : (U1 * U2 /ₘ (D * D)).Monic := mD2.of_mul_monic_right (hU.symm ▸ mU1.mul mU2)
  obtain ⟨hu, -⟩ := isListOf_pdiv_pmod hp hlt (hu1.mul hu2) (canonical_pmul hp.pos _ _) (hD.mul hD)
    (canonical_pmul hp.pos _ _) mD2
  obtain ⟨hn, -⟩ := isListOf_pdiv_pmod hp hlt
    (((((hC1.mul hE1).mul hu1).mul hv2).add (((hC1.mul hE2).mul hu2).mul hv1)).add
      (hC2.mul ((hv1.mul hv2).add hc.f_represents)))
    (canonical_padd hp.pos _ _) hD cD mD
  obtain ⟨-, hv⟩ := isListOf_pdiv_pmod hp hlt hn.represents hn.canonical hu.represents hu.canonical mU
  rw [hcomp]
  refine ⟨_, _, .of_lists hu hv mU (degree_modByMonic_lt _ mU), Dvd.intro _ hU, fun hcurve => ?_⟩
  refine ⟨D, C1 * E1, C1 * E2, C2, _, ⟨mD, hD1, hD2, hD3⟩, ?_, by rw [sq, hU],
    divByMonic_mul_self mD (dvd_numerator_of_composition hD1 hD2 hD3 hcurve),
    (dvd_sub_comm).1 (dvd_modByMonic_sub _ _), degree_modByMonic_lt _ mU⟩
  rw [hbezout2, hbezout1]
  ring

/-- One reduction step on the lists of a pair (R262). -/
theorem reduceStep_eq (p : Nat) (f h u v : Poly) :
    reduceStep p f h (u, v) =
      (pmonic p (pdiv p (psub p (psub p f (pmul p h v)) (pmul p v v)) u),
        pmod p (psub p (pneg p h) v) (pmonic p (pdiv p (psub p (psub p f (pmul p h v)) (pmul p v v)) u))) := rfl

/-- What one reduction step computes from a pair of degree 3 or 4, on the curve or not, is a Mumford pair of degree 2 at
most, and on the curve it is Cantor's reduction (R262, R263). -/
theorem exists_reduceStep (hlt : p < 2 ^ 128) (hc : IsCurve p f h F H) (hD : IsMumford p D U V)
    (hlo : 2 < U.natDegree) (hhi : U.natDegree ≤ 4) :
    ∃ U' V', IsMumford p (reduceStep p f h D) U' V' ∧ U'.natDegree ≤ 2 ∧
      (U ∣ V ^ 2 + H * V - F → IsReduction F H U V U' V') := by
  have hp : p.Prime := Fact.out
  obtain ⟨u, v⟩ := D
  obtain ⟨⟨hu, cu, -⟩, ⟨hv, -, -⟩, mU, hVU⟩ := hD
  obtain ⟨hpos, hle⟩ := natDegree_quotient_of_reduction hc.natDegree_f hc.natDegree_h mU hVU hlo hhi
  have hQ0 : (F - H * V - V ^ 2) /ₘ U ≠ 0 := ne_zero_of_natDegree_gt hpos
  obtain ⟨hq, -⟩ := isListOf_pdiv_pmod hp hlt
    ((hc.f_represents.sub hp.pos (hc.h_represents.mul hv)).sub hp.pos (hv.mul hv)) (canonical_psub hp.pos _ _) hu cu mU
  rw [← sq] at hq
  obtain ⟨U', hu', mU', hscale⟩ := isListOf_pmonic hp hlt hq.represents hq.canonical hQ0
  obtain ⟨-, hv'⟩ := isListOf_pdiv_pmod hp hlt ((hc.h_represents.neg hp.pos).sub hp.pos hv) (canonical_psub hp.pos _ _)
    hu'.represents hu'.canonical mU'
  have hlead : ((F - H * V - V ^ 2) /ₘ U).leadingCoeff ≠ 0 := leadingCoeff_ne_zero.2 hQ0
  rw [reduceStep_eq]
  refine ⟨U', _, .of_lists hu' hv' mU' (degree_modByMonic_lt _ mU'), ?_, fun hcurve => ?_⟩
  · rw [← natDegree_C_mul hlead, hscale]
    exact hle
  · have hdvd : U ∣ F - H * V - V ^ 2 := by
      rw [show F - H * V - V ^ 2 = -(V ^ 2 + H * V - F) by ring]
      exact hcurve.neg_right
    exact ⟨mU', ⟨_, hlead, by rw [hscale, divByMonic_mul_self mU hdvd]⟩, dvd_sub_comm.1 (dvd_modByMonic_sub _ _),
      degree_modByMonic_lt _ mU'⟩

/-! ### The reference result -/

/-- A composed pair of degree 2 at most is the result (R264). -/
theorem cantorRef_of_natDegree_le (hD : IsMumford p (compose p f h D1 D2) U V) (hU : U.natDegree ≤ 2) :
    cantorRef p f h D1 D2 = compose p f h D1 D2 := by
  rw [cantorRef_eq, if_neg (by rw [hD.deg_eq]; omega)]

/-- A composed pair of a greater degree is reduced once (R264). -/
theorem cantorRef_of_lt_natDegree (hD : IsMumford p (compose p f h D1 D2) U V) (hU : 2 < U.natDegree) :
    cantorRef p f h D1 D2 = reduceStep p f h (compose p f h D1 D2) := by
  rw [cantorRef_eq, if_pos (by rw [hD.deg_eq]; omega)]

/-- The reference result of two reduced pairs, and how it comes from the composed pair (R263, R264). -/
theorem exists_cantorRef (hlt : p < 2 ^ 128) (hc : IsCurve p f h F H) (h1 : IsMumford p D1 U1 V1)
    (h2 : IsMumford p D2 U2 V2) (hU1 : U1.natDegree ≤ 2) (hU2 : U2.natDegree ≤ 2) :
    ∃ U V, IsMumford p (compose p f h D1 D2) U V ∧
      (U1 ∣ V1 ^ 2 + H * V1 - F → IsComposition F H U1 V1 U2 V2 U V) ∧
      (U.natDegree ≤ 2 → cantorRef p f h D1 D2 = compose p f h D1 D2) ∧
      (2 < U.natDegree → ∃ U' V', IsMumford p (cantorRef p f h D1 D2) U' V' ∧ U'.natDegree ≤ 2 ∧
        (U ∣ V ^ 2 + H * V - F → IsReduction F H U V U' V')) := by
  obtain ⟨U, V, hD, hdvd, hcomp⟩ := exists_compose hlt hc h1 h2
  have hU4 : U.natDegree ≤ 4 := by
    have hle := natDegree_le_of_dvd hdvd (h1.monic.mul h2.monic).ne_zero
    rw [h1.monic.natDegree_mul h2.monic] at hle
    omega
  refine ⟨U, V, hD, hcomp, cantorRef_of_natDegree_le hD, fun hU => ?_⟩
  rw [cantorRef_of_lt_natDegree hD hU]
  exact exists_reduceStep hlt hc hD hU hU4

/-- The reference result is a reduced pair, and on the curve where both inputs are (R264, R271). -/
theorem exists_isMumford_cantorRef (hlt : p < 2 ^ 128) (hc : IsCurve p f h F H) (h1 : IsMumford p D1 U1 V1)
    (h2 : IsMumford p D2 U2 V2) (hU1 : U1.natDegree ≤ 2) (hU2 : U2.natDegree ≤ 2) :
    ∃ U V, IsMumford p (cantorRef p f h D1 D2) U V ∧ U.natDegree ≤ 2 ∧
      (U1 ∣ V1 ^ 2 + H * V1 - F → U2 ∣ V2 ^ 2 + H * V2 - F → U ∣ V ^ 2 + H * V - F) := by
  obtain ⟨U, V, hD, hcomp, hsmall, hlarge⟩ := exists_cantorRef hlt hc h1 h2 hU1 hU2
  rcases Nat.lt_or_ge 2 U.natDegree with hU | hU
  · obtain ⟨U', V', hD', hU', hred⟩ := hlarge hU
    exact ⟨U', V', hD', hU', fun hcurve1 hcurve2 => (hred ((hcomp hcurve1).dvd hcurve1 hcurve2)).dvd⟩
  · exact ⟨U, V, hsmall hU ▸ hD, hU, fun hcurve1 hcurve2 => (hcomp hcurve1).dvd hcurve1 hcurve2⟩

/-- The identity is neutral on the left (R270). -/
theorem cantorRef_one_left (hlt : p < 2 ^ 128) (hc : IsCurve p f h F H) (hD : IsMumford p D U V)
    (hU : U.natDegree ≤ 2) (hcurve : U ∣ V ^ 2 + H * V - F) : cantorRef p f h ([1], []) D = D := by
  obtain ⟨U', V', hD', -, hcomp⟩ := exists_compose hlt hc isMumford_one hD
  obtain ⟨rfl, rfl⟩ := (hcomp (one_dvd _)).one_left hcurve hD.degree_lt
  rw [cantorRef_of_natDegree_le hD' hU, hD'.eq hD]

/-- The identity is neutral on the right (R270). -/
theorem cantorRef_one_right (hlt : p < 2 ^ 128) (hc : IsCurve p f h F H) (hD : IsMumford p D U V)
    (hU : U.natDegree ≤ 2) (hcurve : U ∣ V ^ 2 + H * V - F) : cantorRef p f h D ([1], []) = D := by
  obtain ⟨U', V', hD', -, hcomp⟩ := exists_compose hlt hc hD isMumford_one
  obtain ⟨rfl, rfl⟩ := (hcomp hcurve).one_right hcurve hD.degree_lt
  rw [cantorRef_of_natDegree_le hD' hU, hD'.eq hD]

/-! ### Registers -/

/-- A StrictOK divisor set holds the lists of a reduced pair (R231). -/
theorem isMumford_pair {D : DivRegs} (hstrict : strictOK p D = true) (hU : Represents p D.u U)
    (hV : Represents p D.v V) : IsMumford p D.pair U V ∧ U.natDegree ≤ 2 := by
  have hp : p.Prime := Fact.out
  obtain ⟨cu, cv, -, -, hdeg, hlc⟩ := (strictOK_iff_deg p D).1 hstrict
  have mU := hU.monic hp.one_lt cu hlc
  have hlen : deg D.u < 3 := deg_lt_length D.u
  have hnat := hU.deg_eq hp.pos cu mU.ne_zero
  exact ⟨⟨.of_trim hp.pos hU cu, .of_trim hp.pos hV cv, mU,
    (hV.degree_lt_degree_iff hp.pos cv hU cu mU.ne_zero).2 hdeg⟩, by omega⟩

/-- The registers that WriteDiv writes for a reduced pair are StrictOK and stand for the pair (R234, R271). -/
theorem IsMumford.ofPair (hlt : p < 2 ^ 128) (hD : IsMumford p D U V) (hU : U.natDegree ≤ 2) :
    strictOK p (DivRegs.ofPair D.1 D.2) = true ∧ Represents p (DivRegs.ofPair D.1 D.2).u U ∧
      Represents p (DivRegs.ofPair D.1 D.2).v V := by
  have hp : p.Prime := Fact.out
  have hu2 : deg D.1 ≤ 2 := by
    rw [hD.deg_eq]
    omega
  obtain ⟨⟨hu, cu, -⟩, ⟨hv, cv, -⟩, mU, hVU⟩ := hD
  have hdeg : deg D.2 < deg D.1 := (hv.degree_lt_degree_iff hp.pos cv hu cu mU.ne_zero).1 hVU
  refine ⟨strictOK_ofPair hp.pos hlt cu cv (hu.lc_eq_one hp.one_lt cu mU) hdeg hu2, fun i => ?_, fun i => ?_⟩
  · rw [coeff_ofPair_u _ (fun i => (cu.coeff_lt hp.pos i).trans hlt) hu2, hu i]
  · rw [coeff_ofPair_v _ (fun i => (cv.coeff_lt hp.pos i).trans hlt) (by omega), hv i]

end

/-- A checked parameter set holds the lists of a curve (R39, R144). -/
theorem isCurve_of_paramOK {c : CurveParams} (hok : paramOK c = true) {F H : (ZMod c.p.toNat)[X]}
    (hF : Represents c.p.toNat c.f F) (hH : Represents c.p.toNat c.h H) : IsCurve c.p.toNat c.f c.h F H := by
  obtain ⟨-, hp3, hf5, ⟨hf0, hf1, hf2, hf3, hf4⟩, hh0, hh1, hh2⟩ := (paramOK_iff c).1 hok
  have : Fact (1 < c.p.toNat) := ⟨by omega⟩
  have hF5 : F.coeff 5 ≠ 0 := by
    rw [hF 5, CurveParams.f, show coeff _ 5 = c.f5.toNat from rfl, hf5, Nat.cast_one]
    exact one_ne_zero
  refine ⟨hF, ?_, hH, ?_, natDegree_eq_of_le_of_coeff_ne_zero ?_ hF5, ?_⟩
  · simp only [Canonical, CurveParams.f, List.forall_mem_cons, hf5]
    exact ⟨hf0, hf1, hf2, hf3, hf4, by omega, by simp⟩
  · simp only [Canonical, CurveParams.h, List.forall_mem_cons]
    exact ⟨hh0, hh1, hh2, by simp⟩
  · exact natDegree_le_iff_coeff_eq_zero.2 fun i hi => by rw [hF i, coeff_of_length_le (a := c.f) hi, Nat.cast_zero]
  · exact natDegree_le_iff_coeff_eq_zero.2 fun i hi => by rw [hH i, coeff_of_length_le (a := c.h) hi, Nat.cast_zero]

/-- Member of a StrictOK divisor set over a checked parameter set, in (Z/p)[x] (R232). -/
theorem member_iff_dvd {c : CurveParams} {D : DivRegs} {F H U V : (ZMod c.p.toNat)[X]} (hok : paramOK c = true)
    (hF : Represents c.p.toNat c.f F) (hH : Represents c.p.toNat c.h H) (hstrict : strictOK c.p.toNat D = true)
    (hU : Represents c.p.toNat D.u U) (hV : Represents c.p.toNat D.v V) :
    member c.p.toNat c.f c.h D = true ↔ U ∣ V ^ 2 + H * V - F := by
  obtain ⟨hodd, hp3, -⟩ := (paramOK_iff c).1 hok
  have hc := isCurve_of_paramOK hok hF hH
  exact memberMeansDivisibility _ _ _ D F H U V hodd hp3 c.p.isLt hstrict hc.f_canonical hc.h_canonical hF hH hU hV

/-- Settles O32: the registers of the inputs hold reduced pairs, on which the reference result is Cantor's in (Z/p)[x],
and WriteDiv stores reduced pairs. -/
theorem cantorResultIsStrictOK : Obligations.CantorResultIsStrictOK := by
  intro c D1 D2 hok hp hstrict1 hstrict2
  have : Fact c.p.toNat.Prime := ⟨hp⟩
  have hlt : c.p.toNat < 2 ^ 128 := c.p.isLt
  obtain ⟨F, hF⟩ := exists_represents c.p.toNat c.f
  obtain ⟨H, hH⟩ := exists_represents c.p.toNat c.h
  obtain ⟨U1, hU1⟩ := exists_represents c.p.toNat D1.u
  obtain ⟨V1, hV1⟩ := exists_represents c.p.toNat D1.v
  obtain ⟨U2, hU2⟩ := exists_represents c.p.toNat D2.u
  obtain ⟨V2, hV2⟩ := exists_represents c.p.toNat D2.v
  have hc := isCurve_of_paramOK hok hF hH
  obtain ⟨hD1, hdeg1⟩ := isMumford_pair hstrict1 hU1 hV1
  obtain ⟨hD2, hdeg2⟩ := isMumford_pair hstrict2 hU2 hV2
  have hcurve1 := member_iff_dvd hok hF hH hstrict1 hU1 hV1
  have hcurve2 := member_iff_dvd hok hF hH hstrict2 hU2 hV2
  obtain ⟨U, V, href, hdeg, hcurve⟩ := exists_isMumford_cantorRef hlt hc hD1 hD2 hdeg1 hdeg2
  obtain ⟨hstrict, hU, hV⟩ := href.ofPair hlt hdeg
  refine ⟨hstrict, fun hm1 hm2 => ⟨?_, ?_⟩, fun hm1 => ⟨?_, ?_⟩⟩
  · exact (member_iff_dvd hok hF hH hstrict hU hV).2 (hcurve (hcurve1.1 hm1) (hcurve2.1 hm2))
  · intro F' H' U1' V1' U2' V2' hF' hH' hU1' hV1' hU2' hV2'
    rw [hF'.unique hF, hH'.unique hH, hU1'.unique hU1, hV1'.unique hV1, hU2'.unique hU2, hV2'.unique hV2]
    obtain ⟨W, Z, hcompose, hcomposition, hsmall, hlarge⟩ := exists_cantorRef hlt hc hD1 hD2 hdeg1 hdeg2
    have hrel := hcomposition (hcurve1.1 hm1)
    refine ⟨W, Z, hcompose.u_list.represents, hcompose.v_list.represents, hrel, hsmall, fun hW => ?_⟩
    obtain ⟨W', Z', hreduced, -, hreduction⟩ := hlarge hW
    exact ⟨W', Z', hreduced.u_list.represents, hreduced.v_list.represents,
      hreduction (hrel.dvd (hcurve1.1 hm1) (hcurve2.1 hm2))⟩
  · exact cantorRef_one_left hlt hc hD1 hdeg1 (hcurve1.1 hm1)
  · exact cantorRef_one_right hlt hc hD1 hdeg1 (hcurve1.1 hm1)

end Sys2Proof.Machine

/-! The statements about the scalar unit: DSMUL as a group command with the events of the scalar loop (R290, R292,
R333), and the loop of SMulRef as a fold over the bits of k (R291, R294). -/

namespace Sys2Proof.Machine

open Polynomial

/-! ### The command -/

/-- The events of `n` iterations of the scalar loop, one block for each (R333). -/
theorem ladderEvents_eq_flatten (n : Nat) :
    ladderEvents n =
      (List.replicate n ([⟨false, .ladderIter⟩] ++ groupEvents ++ groupEvents ++ [⟨true, .ladderIter⟩])).flatten := by
  induction n with
  | zero => rfl
  | succ n ih => rw [List.replicate_succ, List.flatten_cons, ← ih, ladderEvents]; rfl

/-- HOOKSEQ(DSMUL) (R333). -/
theorem hookSeq_dsmul (kbits : Nat) : hookSeq kbits .dsmul = scalarEvents kbits := by
  rw [scalarEvents, ← ladderEvents_eq_flatten]
  rfl

/-- Settles O31: a group command that reads A alone, with the scalar multiple as its reference result. -/
theorem dsmulFollowsRule : Obligations.DsmulFollowsRule := by
  refine ⟨decode_encode .dsmul, fun s => ?_⟩
  have hrule := exec_of_groupChecks (i := .dsmul) rfl rfl s
  simp only [List.forall_mem_singleton, hookSeq_dsmul] at hrule
  exact hrule

/-! ### The loop -/

section
variable (p : Nat) (f h : Poly) (k : Nat) (D q : Mumford) (n : Nat)

/-- The loop as a fold over the bit numbers from `n - 1` down to 0 (R291). -/
theorem smulLoop_eq_foldl :
    smulLoop p f h k D n q = (List.range n).reverse.foldl
      (fun Q i => if k / 2 ^ i % 2 = 1 then cantorRef p f h (cantorRef p f h Q Q) D else cantorRef p f h Q Q) q := by
  induction n generalizing q with
  | zero => rfl
  | succ n ih =>
    rw [smulLoop_succ, ih, List.range_succ, List.reverse_concat, List.foldl_cons]
    simp only [Nat.testBit_eq_decide_div_mod_eq, decide_eq_true_eq]

/-- The last iteration of the loop is that of bit 0, and the iterations before it are those of `k / 2`. -/
theorem smulLoop_succ_eq_last :
    smulLoop p f h k D (n + 1) q =
      let Q := smulLoop p f h (k / 2) D n q
      if k.testBit 0 then cantorRef p f h (cantorRef p f h Q Q) D else cantorRef p f h Q Q := by
  induction n generalizing q with
  | zero => rfl
  | succ n ih => rw [smulLoop_succ, ih, smulLoop_succ, Nat.testBit_succ]

variable {p f h q}

/-- With no bit of k set, the loop stays at a pair that doubling leaves as it is. -/
theorem smulLoop_zero_of_double_eq (hq : cantorRef p f h q q = q) : smulLoop p f h 0 D n q = q := by
  induction n with
  | zero => rfl
  | succ n ih => rw [smulLoop_succ, Nat.zero_testBit, if_neg Bool.false_ne_true, hq, ih]

/-- With bit 0 the only bit of k, the loop from such a pair adds D to it once. -/
theorem smulLoop_one_of_double_eq (hq : cantorRef p f h q q = q) :
    smulLoop p f h 1 D (n + 1) q = cantorRef p f h q D := by
  have hhalf : smulLoop p f h (1 / 2) D n q = q := smulLoop_zero_of_double_eq D n hq
  rw [smulLoop_succ_eq_last, hhalf]
  exact (if_pos Nat.testBit_one_zero).trans (by rw [hq])

end

/-- The double of the identity is the identity (R270). -/
theorem cantorRef_one_one {p : Nat} [Fact p.Prime] {f h : Poly} {F H : (ZMod p)[X]} (hlt : p < 2 ^ 128)
    (hc : IsCurve p f h F H) : cantorRef p f h ([1], []) ([1], []) = ([1], []) :=
  cantorRef_one_left hlt hc isMumford_one (by simp) (one_dvd _)

/-- Settles O33: the loop stays at the identity as long as the bits of k are 0, and for k = 1 the addition of its last
iteration gives the divisor. -/
theorem scalarZeroGivesIdentity : Obligations.ScalarZeroGivesIdentity := by
  intro c D n hok hp hstrict
  have : Fact c.p.toNat.Prime := ⟨hp⟩
  have hlt : c.p.toNat < 2 ^ 128 := c.p.isLt
  obtain ⟨F, hF⟩ := exists_represents c.p.toNat c.f
  obtain ⟨H, hH⟩ := exists_represents c.p.toNat c.h
  have hone := cantorRef_one_one hlt (isCurve_of_paramOK hok hF hH)
  refine ⟨fun k => smulLoop_eq_foldl .., smulLoop_zero_of_double_eq _ n hone, fun hmember hn => ?_⟩
  obtain ⟨-, -, hneutral⟩ := cantorResultIsStrictOK c D D hok hp hstrict hstrict
  obtain ⟨m, rfl⟩ := Nat.exists_eq_add_of_le' hn
  exact (smulLoop_one_of_double_eq D.pair m hone).trans (hneutral hmember).1

end Sys2Proof.Machine

/-! The statements about the fault state, the operation counts and the hooks: what leaves the fault state (R317), the
constraints on NOPS (R328), and the hook sequences and their identifiers on the hook port (R330, R333). -/

namespace Sys2Proof.Machine

/-! ### The fault state -/

/-- In the idle fault state no command is pending to complete and none is accepted, and no other change but a reset
writes the fault state or R (R315, R317). -/
theorem Change.keeps_faultState {resets : Prop} {s u : State} (h : Change resets s u) (hno : ¬ resets)
    (hfault : s.fault = true) (hidle : s.busy = false) :
    u.fault = true ∧ u.fcode = s.fcode ∧ u.busy = false ∧ u.lastop = s.lastop ∧ u.r = s.r := by
  have hbusy : s.busy ≠ true := by simp [hidle]
  cases h with
  | faults c _ hpending | finishes c _ hpending => exact absurd (busy_of_pending hpending) hbusy
  | dropped hb => exact absurd hb hbusy
  | write g w _ _ hwrite hreset =>
    cases hwrite with
    | accepted _ hf => exact absurd (hfault.symm.trans hf) (by decide)
    | reset hg hw => exact absurd (hreset hg hw) hno
    | _ => exact ⟨hfault, rfl, hidle, rfl, rfl⟩
  | hardReset hreset => exact absurd hreset hno
  | nothing | status => exact ⟨hfault, rfl, hidle, rfl, rfl⟩

/-- Settles O57: no change that a step can make without a reset writes the fault state or R. -/
theorem faultStateIsSticky : Obligations.FaultStateIsSticky := by
  intro s t hfault hidle h hnoreset
  obtain ⟨rs, u, hchange, rfl⟩ := step_change h
  exact hchange.keeps_faultState hnoreset hfault hidle

/-! ### The operation counts -/

/-- The constraints of R328 on the three counts of the group operations. -/
theorem GroupCounts.legal_iff (c : GroupCounts) (kbits : Nat) :
    c.legal kbits = true ↔ 1 ≤ c.group ∧ 1 ≤ c.nsel ∧ c.group < 2 ^ 32 ∧ c.dsmul kbits < 2 ^ 32 := by
  simp [GroupCounts.legal, and_assoc]

/-- The counts of the group operations are legal: those of the implementation where they are, and else the fallback,
whose count of DSMUL is 3·KBITS (R328). -/
theorem groupCounts_legal {kbits : Nat} (hmax : kbits ≤ 256) : (groupCounts kbits).legal kbits = true := by
  dsimp only [groupCounts]
  split
  · assumption
  · refine (GroupCounts.legal_iff _ _).2 ⟨by decide, by decide, by decide, ?_⟩
    simp only [GroupCounts.dsmul]
    omega

/-- The loop of DSMUL runs at least once, and each iteration counts its select (R328). -/
theorem GroupCounts.one_le_dsmul {c : GroupCounts} {kbits : Nat} (hnsel : 1 ≤ c.nsel) (hmin : 1 ≤ kbits) :
    1 ≤ c.dsmul kbits :=
  calc 1 ≤ kbits * (2 * c.group + c.nsel) := Nat.mul_pos hmin (by omega)
    _ ≤ c.dsmul kbits := Nat.le_add_right _ _

/-- The count of a command that is no group operation is legal (R328). -/
theorem plainCount_bounds (kbits : Nat) (i : Instr) : 1 ≤ plainCount kbits i ∧ plainCount kbits i < 2 ^ 32 := by
  dsimp only [plainCount]
  split
  · assumption
  · decide

/-- Every count is positive and fits in OPCNT (R36, R328). -/
theorem nops_bounds {kbits : Nat} (hmin : 1 ≤ kbits) (hmax : kbits ≤ 256) (i : Instr) :
    1 ≤ nops kbits i ∧ nops kbits i < 2 ^ 32 := by
  obtain ⟨hgroup, hnsel, hgroupMax, hdsmulMax⟩ := (GroupCounts.legal_iff _ _).1 (groupCounts_legal hmax)
  cases i with
  | dadd | ddbl => exact ⟨hgroup, hgroupMax⟩
  | dsmul => exact ⟨GroupCounts.one_le_dsmul hnsel hmin, hdsmulMax⟩
  | _ => exact plainCount_bounds kbits _

/-- Settles O54: the counts of the group operations are built from three legal ones. -/
theorem operationCountLaws : Obligations.OperationCountLaws := by
  intro kbits hmin hmax
  obtain ⟨-, hnsel, -⟩ := (GroupCounts.legal_iff _ _).1 (groupCounts_legal hmax)
  exact ⟨nops_bounds hmin hmax, rfl, _, _, hnsel, rfl⟩

/-! ### The hooks -/

/-- Ten events for each iteration, and the two of the scalar multiplication itself (R333). -/
theorem length_scalarEvents (n : Nat) : (scalarEvents n).length = 10 * n + 2 := by
  have hgroup : groupEvents.length = 4 := rfl
  simp only [scalarEvents, List.length_append, List.length_flatten, List.map_replicate, List.sum_replicate_nat, hgroup,
    List.length_singleton]
  omega

/-- Only the commands that do group operations emit events (R333). -/
theorem hookSeq_eq_nil {i : Instr} (hi : i ∉ [.dadd, .ddbl, .dsmul]) (kbits : Nat) : hookSeq kbits i = [] := by
  cases i with
  | dadd | ddbl | dsmul => simp at hi
  | _ => rfl

/-- Settles O55: the sequence of the scalar loop is `hookSeq_dsmul`, the others and the hook port are tables. -/
theorem hookSequences : Obligations.HookSequences := by
  refine ⟨fun kbits => ⟨rfl, rfl, hookSeq_dsmul kbits, ?_, fun i hi => hookSeq_eq_nil hi kbits⟩,
    fun e => ⟨rfl, rfl, rfl, rfl⟩⟩
  rw [hookSeq_dsmul, length_scalarEvents]

end Sys2Proof.Machine

/-! The statements about reset: the CTRL write that resets an idle core (R352), and the hardware reset, which abandons
a pending command with a prefix of its hook sequence emitted (R353). -/

namespace Sys2Proof.Machine

open HostAsm

/-! ### The soft reset -/

/-- A CTRL write with bit 31 set resets an idle core, in the fault state or not (R352). -/
theorem memWrite_ctrl_of_reset_bit {s : State} {w : Word} (hidle : s.busy = false) (hw : w.getLsbD 31 = true) :
    memWrite (offsetOf .ctrl) w s = resetCore s := by
  rw [memWrite_offsetOf hidle]
  exact if_pos hw

/-- Settles O48: an idle core is reset, and a busy one drops the write like any other. -/
theorem softResetClearsCore : Obligations.SoftResetClearsCore :=
  fun _ w hw => ⟨fun hidle => memWrite_ctrl_of_reset_bit hidle hw,
    fun hbusy => memWrite_of_busy hbusy (by decide) (by decide) w⟩

/-! ### The hardware reset -/

/-- A legal word has the hook sequence of the command that it decodes to (R110, R333). -/
theorem hookSeqOfOp_opField {cw : Word} {i : Instr} (h : decode cw = .ok i) (kbits : Nat) :
    hookSeqOfOp kbits (opField cw) = hookSeq kbits i := by
  unfold decode at h
  split at h
  · simp only [hookSeqOfOp, h]
  · cases h

/-- A command accepted with HOOKEN = 0 has emitted nothing when it is abandoned (R353). -/
theorem abandonedEvents_of_not_hooken {c : Pending} (h : c.hooken = false) (n kbits : Nat) :
    abandonedEvents n kbits c = [] := by
  simp [abandonedEvents, h]

/-- A legal command has emitted a prefix of its hook sequence when it is abandoned (R353). -/
theorem abandonedEvents_prefix {c : Pending} {i : Instr} (h : decode c.cw = .ok i) (n kbits : Nat) :
    abandonedEvents n kbits c <+: hookSeq kbits i := by
  unfold abandonedEvents
  split
  · rw [hookSeqOfOp_opField h]
    exact List.take_prefix _ _
  · exact List.nil_prefix

/-- Without a pending command the hardware reset only resets the core (R351). -/
theorem hardReset_of_idle {s : State} (h : s.pending = none) : hardReset s = resetCore s := by
  simp only [hardReset, h]

/-- The hardware reset of a core with a command pending keeps the events that the command had emitted (R353). -/
theorem hardReset_of_pending {s : State} {c : Pending} (h : s.pending = some c) :
    hardReset s =
      resetCore { s with hooks := s.hooks ++ abandonedEvents s.draws s.kbits c, draws := s.draws + 1 } := by
  simp only [hardReset, h]

/-- A step with the hardware reset next takes it. -/
theorem step_of_hardReset {s : State} {es : List EnvEvent} (h : s.env = .hardReset :: es) :
    step s = .next (hardReset { s with env := es }) := by
  simp only [step, h, envAccess]

/-- Settles O49: nothing is emitted where no command is pending, and else what the abandoned command had emitted. -/
theorem hardResetAbandonsCommand : Obligations.HardResetAbandonsCommand := by
  intro s es henv
  have hstep := step_of_hardReset henv
  cases hpending : s.pending with
  | none =>
    refine ⟨[], s.draws, ?_, fun _ => rfl, nofun⟩
    rw [hstep, hardReset_of_idle (s := { s with env := es }) hpending, List.append_nil]
    rfl
  | some c =>
    refine ⟨abandonedEvents s.draws s.kbits c, s.draws + 1, ?_, nofun, fun c' hc' => ?_⟩
    · rw [hstep, hardReset_of_pending (s := { s with env := es }) hpending]
      rfl
    · cases hc'
      exact ⟨fun hoff => abandonedEvents_of_not_hooken hoff _ _, fun i hi => abandonedEvents_prefix hi _ _⟩

end Sys2Proof.Machine
